-- ==== Sys2Proof/Word.lean ====
section
/-! DEFINITION. The word types of the block: bus word, transaction code, nibble, frame buffer and frame word. -/

namespace Sys2Proof

/-- A 32-bit register or bus word (20_memory.md R50, R54). -/
abbrev Word := BitVec 32

/-- The 8-bit transaction word `W[7:0]` (30_encoding.md R70). -/
abbrev Code := BitVec 8

/-- A four-bit nibble (00_scope.md R6, R14). -/
abbrev Nibble := BitVec 4

/-- The frame buffer's 13 nibbles, `NIB[0]` first (10_state.md R22). -/
abbrev Nibbles := Vector Nibble 13

/-- The frame word `F`, whose bit `i` is arrival bit `b_i` (30_encoding.md R84). -/
abbrev FrameWord := BitVec 52

end Sys2Proof
end

