-- ==== Sys2Proof/Config.lean ====
section
/-! DEFINITION. The fixed constants of the wire protocol, the build parameters of the block and of the host agent with
the spec's defaults, and the host's open rounding function. -/

namespace Sys2Proof

/-- The block's parameters (00_scope.md R7) with the values the spec takes. The defaults of `tsW` and
`clkActiveLevel` are marked by the spec as general knowledge (93_implementation_defined.md G1, G2).
DESIGN CHOICE (log 1): they travel in State, so that every claim is for every parameter value. -/
structure BlockParams where
  /-- `MAX_BIT_WAIT`, in milliseconds. -/
  maxBitWait : Nat := 30
  /-- `TS_W`, the width of a timestamp in bits. -/
  tsW : Nat := 32
  /-- `SLOT_VALUE_W`, the width of the slot's value in bits. -/
  slotValueW : Nat := 32
  /-- `CLK_ACTIVE_LEVEL`: the sampled clock level that opens the gate. -/
  clkActiveLevel : Bool := false
  /-- `DATA_INVERT`: a low data level means bit 1. -/
  dataInvert : Bool := false
  deriving DecidableEq, Repr

/-- The host agent's parameters (00_scope.md R8); `TO_FLOAT` is `Config.toFloat`. -/
structure HostParams where
  settleMs : Nat := 10
  pollIters : Nat := 28
  pollSleepMs : Nat := 5
  autoTrigger : Bool := true
  invertSign : Bool := false
  /-- The host's tests are of CTRL bit 0 alone (43_host_cycle.md R182, R186, R187; decided by D25 and K14): `false`.
  `true` is the other reading, of the derived remark 70_reset_and_hazards.md R230 (c), by which a RESET after the arm
  makes the cycle time out. The parameter is the model's (DESIGN CHOICE, log 14). -/
  resetTimesOut : Bool := false
  deriving DecidableEq, Repr

/-- A floating-point output of the host, as a number that codes it in the host's own format. The spec gives no
format (91_not_in_source.md N11). -/
abbrev FloatCode := Nat

namespace Config

/-- `FRAME_LEN` (00_scope.md R6). -/
def frameLen : Nat := 52

/-- `NIBBLES` (00_scope.md R6). -/
def nibbles : Nat := 13

/-- The block's parameters at the spec's defaults (R7). -/
def block : BlockParams := {}

/-- The host's parameters at the spec's defaults (R8). -/
def host : HostParams := {}

/-- `TO_FLOAT`, the host's rounding of an exact rational to its output (R8, R189, D29): OPEN in the spec, so a free
value, with no body (log 9). -/
opaque toFloat : Rat → FloatCode

end Config

end Sys2Proof
end

