-- ==== Sys2Proof/Syntax.lean ====
section
/-! DEFINITION. The transactions of the block, one constructor per row of spec/opcode_table.json, the register
indices, and the raw transaction that the decoder reads. -/

namespace Sys2Proof

/-- The four host-visible registers (20_memory.md R50, R57). -/
inductive Reg where
  /-- Index 0 (10_state.md R38). -/
  | ctrl
  /-- Index 1 (10_state.md R39). -/
  | resultValue
  /-- Index 2 (10_state.md R40). -/
  | resultDp
  /-- Index 3 (10_state.md R42). -/
  | resultSign
  deriving DecidableEq, Repr

/-- The block's transactions (30_encoding.md R76). -/
inductive Instr where
  /-- NOP, no event (40_edge_sampler.md R106). -/
  | nop
  /-- RESET (70_reset_and_hazards.md R230). -/
  | reset
  /-- EDGE with the sampled clock level `c`, the sampled data level `d` and the captured timestamp `T`
  (40_edge_sampler.md R105). -/
  | edge (c d : Bool) (T : Nat)
  /-- RD.CTRL (42_result_slot.md R170). -/
  | rdCtrl
  /-- RD.VALUE (42_result_slot.md R171). -/
  | rdValue
  /-- RD.DP (42_result_slot.md R172). -/
  | rdDp
  /-- RD.SIGN (42_result_slot.md R173). -/
  | rdSign
  /-- WR.CTRL (42_result_slot.md R160). -/
  | wrCtrl (wdata : Word)
  /-- WR.VALUE (42_result_slot.md R161). -/
  | wrValue (wdata : Word)
  /-- WR.DP (42_result_slot.md R162). -/
  | wrDp (wdata : Word)
  /-- WR.SIGN (42_result_slot.md R163). -/
  | wrSign (wdata : Word)
  deriving DecidableEq, Repr

/-- A transaction as it reaches the block: the 8-bit word and the number on its operand lines (30_encoding.md R70).
DESIGN CHOICE (log 3): the operand lines always carry a number, and a transaction without an operand does not look at
it. -/
structure Transaction where
  word : Code
  operand : Nat := 0
  deriving DecidableEq, Repr

/-- The agent whose transaction it is (00_scope.md R15). -/
inductive Agent where
  | instrument
  | host
  | reset
  deriving DecidableEq, Repr

end Sys2Proof
end

