-- ==== Sys2Proof/WellFormed.lean ====
section
/-! DEFINITION. When a transaction is well formed: a timestamp operand fits the time base's width. Every other operand
fits its field by its type. -/

namespace Sys2Proof

/-- A timestamp operand is a `TS_W`-bit unsigned number (00_scope.md R9, 30_encoding.md R70). No other transaction has
an operand that can be ill-formed: `c`, `d` are bits and WDATA is a 32-bit word. -/
def Instr.wf (tsW : Nat) : Instr → Bool
  | .nop => true
  | .reset => true
  | .edge _ _ T => decide (T < 2 ^ tsW)
  | .rdCtrl => true
  | .rdValue => true
  | .rdDp => true
  | .rdSign => true
  | .wrCtrl _ => true
  | .wrValue _ => true
  | .wrDp _ => true
  | .wrSign _ => true

end Sys2Proof
end

