-- ==== Sys2Proof/Decode.lean ====
section
/-! DEFINITION. The decoder of transaction words, total on all 256 words, rejecting reserved words by name; then the
encoder, written from the bit fields of the spec's formats; the opcode map as a table; and the host's view of a table
word. -/

namespace Sys2Proof

/-- What the decoder answers: a transaction, or that the word is reserved (30_encoding.md R77). -/
inductive Decoded where
  | instr (i : Instr)
  /-- RESERVED: the word has no meaning (R78). -/
  | reserved (w : Code)
  deriving DecidableEq, Repr

/-- The register that a 2-bit index names (20_memory.md R50, R57: all four values are assigned). -/
def regOfIndex (a : BitVec 2) : Reg :=
  if a = 0#2 then .ctrl else if a = 1#2 then .resultValue else if a = 2#2 then .resultDp else .resultSign

/-- The 2-bit index of a register (R50). -/
def indexOfReg : Reg → BitVec 2
  | .ctrl => 0b00#2
  | .resultValue => 0b01#2
  | .resultDp => 0b10#2
  | .resultSign => 0b11#2

/-- RD of a register (R75). -/
def readOf : Reg → Instr
  | .ctrl => .rdCtrl
  | .resultValue => .rdValue
  | .resultDp => .rdDp
  | .resultSign => .rdSign

/-- WR of a register (R75). -/
def writeOf (v : Word) : Reg → Instr
  | .ctrl => .wrCtrl v
  | .resultValue => .wrValue v
  | .resultDp => .wrDp v
  | .resultSign => .wrSign v

/-- The decoding procedure of 30_encoding.md R77, branch by branch. The operand lines give `T[TS_W-1:0]` to EDGE and
`WDATA[31:0]` to WR.* (R70). -/
def decode (tsW : Nat) (x : Transaction) : Decoded :=
  let w := x.word
  if w.getLsbD 7 then
    if w.extractLsb 5 2 ≠ 0#4 then .reserved w
    else if w.getLsbD 6 then .instr (writeOf (BitVec.ofNat 32 x.operand) (regOfIndex (w.extractLsb 1 0)))
    else .instr (readOf (regOfIndex (w.extractLsb 1 0)))
  else if w.extractLsb 6 4 = 0b000#3 then
    if w.extractLsb 3 0 = 0b0000#4 then .instr .nop
    else if w.extractLsb 3 0 = 0b0001#4 then .instr .reset
    else .reserved w
  else if w.extractLsb 6 4 = 0b001#3 then
    if w.extractLsb 3 2 ≠ 0b00#2 then .reserved w
    else .instr (.edge (w.getLsbD 1) (w.getLsbD 0) (x.operand % 2 ^ tsW))
  else .reserved w

/-- Format E: `H = 0`, the class, the sub-field (R71). -/
def eventWord (cls : BitVec 3) (sub : BitVec 4) : Code := 0b0#1 ++ cls ++ sub

/-- Format B: `H = 1`, the write bit, four zero bits, the register index (R71). -/
def busWord (wr : Bool) (r : Reg) : Code := 0b1#1 ++ BitVec.ofBool wr ++ 0b0000#4 ++ indexOfReg r

/-- The encoder: the word of a transaction and its operand (R73, R74, R75). -/
def encode : Instr → Transaction
  | .nop => ⟨eventWord 0b000#3 0b0000#4, 0⟩
  | .reset => ⟨eventWord 0b000#3 0b0001#4, 0⟩
  | .edge c d T => ⟨eventWord 0b001#3 (0b00#2 ++ BitVec.ofBool c ++ BitVec.ofBool d), T⟩
  | .rdCtrl => ⟨busWord false .ctrl, 0⟩
  | .rdValue => ⟨busWord false .resultValue, 0⟩
  | .rdDp => ⟨busWord false .resultDp, 0⟩
  | .rdSign => ⟨busWord false .resultSign, 0⟩
  | .wrCtrl v => ⟨busWord true .ctrl, v.toNat⟩
  | .wrValue v => ⟨busWord true .resultValue, v.toNat⟩
  | .wrDp v => ⟨busWord true .resultDp, v.toNat⟩
  | .wrSign v => ⟨busWord true .resultSign, v.toNat⟩

/-- The mnemonic of a transaction's row in the opcode map (R76). -/
def mnemonicOf : Instr → String
  | .nop => "NOP"
  | .reset => "RESET"
  | .edge _ _ _ => "EDGE"
  | .rdCtrl => "RD.CTRL"
  | .rdValue => "RD.VALUE"
  | .rdDp => "RD.DP"
  | .rdSign => "RD.SIGN"
  | .wrCtrl _ => "WR.CTRL"
  | .wrValue _ => "WR.VALUE"
  | .wrDp _ => "WR.DP"
  | .wrSign _ => "WR.SIGN"

/-- Match and mask of a transaction's row in the opcode map (R76). -/
def opcodeRow : Instr → Code × Code
  | .nop => (0x00#8, 0xFF#8)
  | .reset => (0x01#8, 0xFF#8)
  | .edge _ _ _ => (0x10#8, 0xFC#8)
  | .rdCtrl => (0x80#8, 0xFF#8)
  | .rdValue => (0x81#8, 0xFF#8)
  | .rdDp => (0x82#8, 0xFF#8)
  | .rdSign => (0x83#8, 0xFF#8)
  | .wrCtrl _ => (0xC0#8, 0xFF#8)
  | .wrValue _ => (0xC1#8, 0xFF#8)
  | .wrDp _ => (0xC2#8, 0xFF#8)
  | .wrSign _ => (0xC3#8, 0xFF#8)

/-- Does a word belong to a transaction's row of the opcode map? -/
def matchesRow (w : Code) (i : Instr) : Bool := w &&& (opcodeRow i).2 == (opcodeRow i).1

/-- The agent whose transaction it is (00_scope.md R15); a NOP is nobody's (40_edge_sampler.md R106). -/
def agentOf : Instr → Option Agent
  | .nop => none
  | .reset => some .reset
  | .edge _ _ _ => some .instrument
  | .rdCtrl => some .host
  | .rdValue => some .host
  | .rdDp => some .host
  | .rdSign => some .host
  | .wrCtrl _ => some .host
  | .wrValue _ => some .host
  | .wrDp _ => some .host
  | .wrSign _ => some .host

/-- A transaction from one number: bits 7..0 are the word, the bits above it its operand; bits at `nbits` and above
count as 0 (log 3). -/
def transactionOfBits (nbits w : Nat) : Transaction :=
  ⟨BitVec.ofNat 8 (w % 2 ^ nbits), w % 2 ^ nbits / 2 ^ 8⟩

/-- The transaction that the decoder reads from a table word, at the default timestamp width. -/
def decodeTableWord (nbits w : Nat) : Option Instr :=
  match decode Config.block.tsW (transactionOfBits nbits w) with
  | .instr i => some i
  | .reserved _ => none

end Sys2Proof
end

