-- ==== Sys2Proof/Machine/State.lean ====
section
/-! DEFINITION. The machine's state as plain data: the block, the model's refusal mark, the host agent, the parameters
and the inputs still to come; the reasons a step can stop; the state after reset. -/

namespace Sys2Proof.Machine

/-- The block's state: exactly the hardware elements of 10_state.md R20. -/
structure Block where
  /-- `BC` (R21). -/
  bc : BitVec 6
  /-- `NIB[0..12]` (R22). -/
  nib : Nibbles
  /-- `PREV_TS` (R24), a number below `2^TS_W`. -/
  prevTs : Nat
  /-- `M_VALUE` (R25). -/
  mValue : BitVec 21
  /-- `M_DP` (R26). -/
  mDp : Nibble
  /-- `M_POS` (R27). -/
  mPos : Bool
  /-- `SLOT_VALUE` (R29). -/
  slotValue : Word
  /-- `SLOT_DP` (R30). -/
  slotDp : Nibble
  /-- `SLOT_POS` (R31). -/
  slotPos : Bool
  /-- `IS_READING` (R33). -/
  isReading : Bool
  /-- `PEND` (R35). -/
  pend : Bool
  /-- `TRIG_OUT` (R36). -/
  trigOut : Bool
  deriving DecidableEq, Repr

/-- What the host warns of (43_host_cycle.md R188, R190; 60_exceptions.md R200). -/
inductive WarnKind where
  | frameTimeout
  | malformedField
  deriving DecidableEq, Repr

/-- What a cycle hands downstream: a value or a warning (00_scope.md R12, R193). -/
inductive HostOutput where
  /-- `Emit(y)` with `y = TO_FLOAT(x)`. -/
  | emit (y : FloatCode)
  | warn (k : WarnKind)
  deriving DecidableEq, Repr

/-- The control points of `RunOnce` (43_host_cycle.md R182), each with the local variables live there. -/
inductive HostPhase where
  /-- Before `RunOnce` is called. -/
  | idle
  /-- Before the arming write (R183). -/
  | arm
  /-- Before the write that raises the trigger (R184). -/
  | trigger
  /-- In `delay(SETTLE_MS)`, with `left` ms still to pass (R185). -/
  | settle (left : Nat)
  /-- Before a poll, with `more` iterations after this one (R186). -/
  | poll (more : Nat)
  /-- In `delay(POLL_SLEEP_MS)` after a poll, with `left` ms to pass and `more` iterations to come (R186). -/
  | pollSleep (left more : Nat)
  /-- Before the deasserting write (R187). -/
  | deassert
  /-- Before the read that decides success (R187). -/
  | verdict
  /-- The flag was still set: before the warning (R181, R190). -/
  | timedOut
  /-- Before RD.VALUE. -/
  | readValue
  /-- Before RD.DP, with `v` read. -/
  | readDp (v : Word)
  /-- Before RD.SIGN, with `v` and `dp` read. -/
  | readSign (v : Word) (dp : Nibble)
  /-- Before the check and the conversion (R188, R189). -/
  | convert (v : Word) (dp : Nibble) (pos : Bool)
  deriving DecidableEq, Repr

/-- The host agent of 43_host_cycle.md: where its cycle stands and what it handed downstream, newest first. -/
structure HostAgent where
  phase : HostPhase
  outputs : List HostOutput
  deriving DecidableEq, Repr

/-- One input of the machine. DESIGN CHOICE (log 2): the list of turns in State is the total order of
20_memory.md R58, and any list is admitted. -/
inductive Turn where
  /-- A transaction given from outside (instrument, reset, an unconstrained host, or no event). -/
  | transaction (x : Transaction)
  /-- The host agent takes its next action. -/
  | host
  /-- The scheduler calls `RunOnce` (00_scope.md R5, 43_host_cycle.md R182). -/
  | runOnce
  /-- The time base advances by `ms` milliseconds (00_scope.md R12, 60_exceptions.md R211). -/
  | tick (ms : Nat)
  deriving DecidableEq, Repr

/-- The whole machine. -/
structure State where
  /-- The block's parameters, fixed when it is built (20_memory.md R65). -/
  params : BlockParams
  /-- The host's parameters. -/
  hostParams : HostParams
  /-- The hardware. -/
  block : Block
  /-- `REFUSED`, the sticky mark of 10_state.md R43. -/
  refused : Bool
  /-- Has CTRL been written with bit 0 = 1 since the last RESET or power-on? Model bookkeeping for the remark
  70_reset_and_hazards.md R230 (c), read only when `resetTimesOut` is set (log 14). -/
  armedSinceReset : Bool
  /-- `RDATA` of the last RD.* transaction (30_encoding.md R70; log 4). -/
  rdata : Word
  /-- The host agent. -/
  host : HostAgent
  /-- The inputs still to come, next first. -/
  turns : List Turn
  deriving DecidableEq, Repr

/-- No transaction of the block faults: "the block raises no synchronous exception" (60_exceptions.md R200), and there
is "no `fault` and no `stuck` case" (93_implementation_defined.md). So there is no fault to name. -/
inductive Fault
  deriving DecidableEq, Repr

/-- Why a step may have no meaning. The spec's own refusal is the state bit `refused`, not this type (log 5). -/
inductive Refusal where
  /-- Raised only by an arm of `exec` whose transaction has no meaning yet; safe, since nothing can be proved of it.
  No arm raises it now. -/
  | notModelled (mnemonic : String)
  deriving DecidableEq, Repr

/-- The block after reset (10_state.md R44). -/
def Block.reset : Block where
  bc := 0#6
  nib := Vector.replicate 13 0#4
  prevTs := 0
  mValue := 0#21
  mDp := 0#4
  mPos := true
  slotValue := 0#32
  slotDp := 0#4
  slotPos := true
  isReading := false
  pend := false
  trigOut := false

/-- Power-on (70_reset_and_hazards.md R231): the block as RESET leaves it, `REFUSED = 0`, the parameters at the spec's
defaults, the host idle (R181). DESIGN CHOICE (log 4, log 10): `rdata` is 0, nothing was emitted, no input is
waiting; nothing was armed (log 14). -/
def State.reset : State where
  params := Config.block
  hostParams := Config.host
  block := Block.reset
  refused := false
  armedSinceReset := false
  rdata := 0#32
  host := ⟨.idle, []⟩
  turns := []

end Sys2Proof.Machine
end

