-- ==== Sys2Proof/Machine/Ops.lean ====
section
/-! DEFINITION. The named operations over the state: replacing one part of it, reading and writing a nibble, taking
and acknowledging the edge interrupt, raising the refusal mark, and following a transaction by a host-side effect. -/

namespace Sys2Proof.Machine

/-- The outcome of one step of this machine. -/
abbrev Result := Host.Outcome State Fault Refusal

/-- The state with another block. -/
def State.setBlock (s : State) (k : Block) : State := { s with block := k }

/-- The state with its bookkeeping of arms since the last RESET at another value. -/
def State.setArmed (s : State) (b : Bool) : State := { s with armedSinceReset := b }

/-- The state with another read result. -/
def State.setRdata (s : State) (v : Word) : State := { s with rdata := v }

/-- The state with the host agent at another control point. -/
def State.setPhase (s : State) (p : HostPhase) : State := { s with host := { s.host with phase := p } }

/-- The state after the host handed `o` downstream. -/
def State.addOutput (s : State) (o : HostOutput) : State :=
  { s with host := { s.host with outputs := o :: s.host.outputs } }

/-- The state with other inputs to come. -/
def State.setTurns (s : State) (ts : List Turn) : State := { s with turns := ts }

/-- `NIB[k]` (10_state.md R22). -/
def nibAt (v : Nibbles) (k : Nat) : Nibble := v[k]?.getD 0#4

/-- `NIB[k] <- x`. -/
def nibSet (v : Nibbles) (k : Nat) (x : Nibble) : Nibbles := v.setIfInBounds k x

/-- `NIB[0..12] <- 0`. -/
def nibClear : Nibbles := Vector.replicate 13 0#4

/-- Taking the block's one interrupt: detection sets `PEND`. Nothing is saved, no mode changes and there is no vector
(40_edge_sampler.md R100, 60_exceptions.md R207). -/
def takeEdge (k : Block) : Block := { k with pend := true }

/-- Returning from it: the acknowledge clears `PEND`. Nothing is restored (40_edge_sampler.md R104,
60_exceptions.md R208). -/
def acknowledge (k : Block) : Block := { k with pend := false }

/-- Why the refusal mark is raised (60_exceptions.md R200; log 5, log 6). -/
inductive RefuseReason where
  /-- A word outside the opcode map (30_encoding.md R78). -/
  | reservedWord (w : Code)
  /-- The decoder would be called with `BC > 51`, a state to which the spec gives no meaning
  (41_frame_decoder.md R124, 93_implementation_defined.md K33). -/
  | bitCountOutOfRange
  deriving DecidableEq, Repr

/-- `raise Refuse(reason)`: sets `REFUSED` and nothing else; the mark is one bit, so the reason is not kept
(00_scope.md R11, 10_state.md R43). -/
def raiseRefuse (_reason : RefuseReason) (s : State) : State := { s with refused := true }

/-- A host-side effect after the transaction the host issued. -/
def andThen (o : Result) (f : State → State) : Result :=
  match o with
  | .next s => .next (f s)
  | .fault r => .fault r
  | .refused r => .refused r

end Sys2Proof.Machine
end

