-- ==== Sys2Proof/Machine/Operands.lean ====
section
/-! DEFINITION. The operands of the transactions: the sampled data level, the timestamp, the fields of write data, and
the assembly of read data. -/

namespace Sys2Proof.Machine

/-- The bit handed to the decoder, `d XOR DATA_INVERT` (40_edge_sampler.md R101). -/
def dataBit (p : BlockParams) (d : Bool) : Bool := d ^^ p.dataInvert

/-- A timestamp as `PREV_TS` holds it: its low `TS_W` bits (00_scope.md R9, 10_state.md R24). -/
def storedTs (p : BlockParams) (T : Nat) : Nat := T % 2 ^ p.tsW

/-- `(T - PREV_TS) mod 2^TS_W`, with `mod` the non-negative remainder (00_scope.md R10, 41_frame_decoder.md R121). -/
def tsDiff (p : BlockParams) (T prev : Nat) : Nat := (((T : Int) - (prev : Int)) % ((2 ^ p.tsW : Nat) : Int)).toNat

/-- `WDATA[0]` of WR.CTRL: arm (30_encoding.md R80). -/
def wdataArm (v : Word) : Bool := v.getLsbD 0

/-- `WDATA[1]` of WR.CTRL: the trigger level (30_encoding.md R80). -/
def wdataTrig (v : Word) : Bool := v.getLsbD 1

/-- Bit 0 of CTRL as the host reads it: `IS_READING` (10_state.md R38). -/
def ctrlReading (v : Word) : Bool := v.getLsbD 0

/-- The read data of a register, reserved bits 0 (10_state.md R38, R39, R40, R42, 30_encoding.md R80). -/
def readReg (r : Reg) (k : Block) : Word :=
  match r with
  | .ctrl => (BitVec.ofBool k.trigOut ++ BitVec.ofBool k.isReading).setWidth 32
  | .resultValue => k.slotValue
  | .resultDp => k.slotDp.setWidth 32
  | .resultSign => (BitVec.ofBool k.slotPos).setWidth 32

end Sys2Proof.Machine
end

