-- ==== Sys2Proof/Machine/Flags.lean ====
section
/-! DEFINITION. The flags: the gate of the edge sampler, the gap test, the completion test, the sign, and the
reading-in-progress flag's set and clear. -/

namespace Sys2Proof.Machine

/-- The gate: armed, and the clock sampled at its active level (40_edge_sampler.md R102). -/
def gateOpen (p : BlockParams) (c : Bool) (k : Block) : Bool := k.isReading && c == p.clkActiveLevel

/-- The gap test, strict (41_frame_decoder.md R121). -/
def gapExceeded (p : BlockParams) (T : Nat) (k : Block) : Bool := decide (tsDiff p T k.prevTs > p.maxBitWait)

/-- `BC > 51`: no reachable state (10_state.md R21), and the spec gives it no meaning (41_frame_decoder.md R124). -/
def bcOutOfRange (k : Block) : Bool := decide (51 < k.bc.toNat)

/-- `BC = FRAME_LEN` (41_frame_decoder.md R125). -/
def frameComplete (k : Block) : Bool := k.bc.toNat == Config.frameLen

/-- The sign: 0 is positive, every other value negative (41_frame_decoder.md R127). -/
def signIsPositive (n : Nibble) : Bool := n == 0#4

/-- A bit that a write of CTRL sets and never clears, `IS_READING` among them: write-1-to-set (10_state.md R34, 42_result_slot.md R160). -/
def armedAfter (v : Word) (wasReading : Bool) : Bool := wdataArm v || wasReading

end Sys2Proof.Machine
end

