-- ==== Sys2Proof/Machine/FrameDecoder.lean ====
section
/-! DEFINITION. The frame decoder, `Decode(T, b)` of 41_frame_decoder.md: one component rule, one definition. -/

namespace Sys2Proof.Machine

/-- Gap reset: a silence longer than `MAX_BIT_WAIT` discards the partial frame (R121). -/
def gapReset (p : BlockParams) (T : Nat) (k : Block) : Block :=
  if gapExceeded p T k then { k with bc := 0#6, nib := nibClear } else k

/-- Timestamp update, on every call (R122). -/
def updateTs (p : BlockParams) (T : Nat) (k : Block) : Block := { k with prevTs := storedTs p T }

/-- `((n >> 1) | (b << 3))[3:0]` (R123). -/
def shiftIn (b : Bool) (n : Nibble) : Nibble := (n >>> 1) ||| ((BitVec.ofBool b).setWidth 4 <<< 3)

/-- Bit accumulation into `NIB[BC div 4]`, with its guard (R123). -/
def accumulate (b : Bool) (k : Block) : Block :=
  if k.bc.toNat < Config.frameLen then
    { k with
      nib := nibSet k.nib (k.bc.toNat / 4) (shiftIn b (nibAt k.nib (k.bc.toNat / 4)))
      bc := k.bc + 1#6 }
  else k

/-- The value field, exact (R128). -/
def frameValue (v : Nibbles) : Nat :=
  (nibAt v 5).toNat * 100000 + (nibAt v 6).toNat * 10000 + (nibAt v 7).toNat * 1000 + (nibAt v 8).toNat * 100
    + (nibAt v 9).toNat * 10 + (nibAt v 10).toNat

/-- Completion: the Measurement is written from the nibbles, then the buffer and the count are cleared
(R126, R127, R128, R129). -/
def completeFrame (k : Block) : Block :=
  { k with
    mPos := signIsPositive (nibAt k.nib 4)
    mValue := BitVec.ofNat 21 (frameValue k.nib)
    mDp := nibAt k.nib 11
    nib := nibClear
    bc := 0#6 }

/-- The block after the bit is shifted in, before the completion test (R121, R122, R123). -/
def takeBit (p : BlockParams) (T : Nat) (b : Bool) (k : Block) : Block :=
  accumulate b (updateTs p T (gapReset p T k))

/-- `Decode(T, b)`: the block after the call, and `done` (R130). -/
def decodeBit (p : BlockParams) (T : Nat) (b : Bool) (k : Block) : Block × Bool :=
  let k' := takeBit p T b k
  if frameComplete k' then (completeFrame k', true) else (k', false)

end Sys2Proof.Machine
end

