-- ==== Sys2Proof/Machine/ResultSlot.lean ====
section
/-! DEFINITION. The result-slot synchronizer of 42_result_slot.md: Publish and the host's reads and writes. -/

namespace Sys2Proof.Machine

/-- Publish: slot and flag in one step (R150, 20_memory.md R59). -/
def publish (p : BlockParams) (k : Block) : Block :=
  { k with
    slotValue := BitVec.ofNat 32 (k.mValue.toNat % 2 ^ p.slotValueW)
    slotDp := k.mDp
    slotPos := k.mPos
    isReading := false }

/-- A host write of a register; the RESULT registers ignore it (R160 to R163). -/
def writeReg (r : Reg) (v : Word) (k : Block) : Block :=
  match r with
  | .ctrl => { k with isReading := armedAfter v k.isReading, trigOut := wdataTrig v }
  | .resultValue => k
  | .resultDp => k
  | .resultSign => k

/-- A host read: the register's word becomes `RDATA`, and the block is as before (20_memory.md R55). -/
def hostRead (r : Reg) (s : State) : Result := .next (s.setRdata (readReg r s.block))

/-- Whether anything was armed since the last RESET, after a write of a register (70_reset_and_hazards.md R230 (c):
"unless the host arms again"; log 14). -/
def armedAfterWrite (r : Reg) (v : Word) (wasArmed : Bool) : Bool :=
  match r with
  | .ctrl => armedAfter v wasArmed
  | .resultValue => wasArmed
  | .resultDp => wasArmed
  | .resultSign => wasArmed

/-- A host write: `WDATA` goes to the register. -/
def hostWrite (r : Reg) (v : Word) (s : State) : Result :=
  .next ((s.setBlock (writeReg r v s.block)).setArmed (armedAfterWrite r v s.armedSinceReset))

/-- RD.CTRL (R170). -/
def execRdCtrl (s : State) : Result := hostRead .ctrl s

/-- RD.VALUE (R171). -/
def execRdValue (s : State) : Result := hostRead .resultValue s

/-- RD.DP (R172). -/
def execRdDp (s : State) : Result := hostRead .resultDp s

/-- RD.SIGN (R173). -/
def execRdSign (s : State) : Result := hostRead .resultSign s

/-- WR.CTRL (R160). -/
def execWrCtrl (wdata : Word) (s : State) : Result := hostWrite .ctrl wdata s

/-- WR.VALUE, ignored (R161). -/
def execWrValue (wdata : Word) (s : State) : Result := hostWrite .resultValue wdata s

/-- WR.DP, ignored (R162). -/
def execWrDp (wdata : Word) (s : State) : Result := hostWrite .resultDp wdata s

/-- WR.SIGN, ignored (R163). -/
def execWrSign (wdata : Word) (s : State) : Result := hostWrite .resultSign wdata s

end Sys2Proof.Machine
end

