-- ==== Sys2Proof/Machine/EdgeSampler.lean ====
section
/-! DEFINITION. The edge sampler of 40_edge_sampler.md: EDGE and NOP. -/

namespace Sys2Proof.Machine

/-- A decoder call with its completion hand-off: a completed frame is published in the same step (R103). -/
def decodeAndPublish (p : BlockParams) (T : Nat) (b : Bool) (k : Block) : Block :=
  let r := decodeBit p T b k
  if r.2 then publish p r.1 else r.1

/-- The service of one edge between taking the interrupt and acknowledging it (R101, R102, R103). -/
def serviceEdge (p : BlockParams) (c d : Bool) (T : Nat) (k : Block) : Block :=
  if gateOpen p c k then decodeAndPublish p T (dataBit p d) k else k

/-- The block after one edge: the interrupt is taken, serviced and acknowledged (R105). -/
def edgeBlock (p : BlockParams) (c d : Bool) (T : Nat) (k : Block) : Block :=
  acknowledge (serviceEdge p c d T (takeEdge k))

/-- EDGE (R105). Where the gate is open in a state with `BC > 51`,
to which the spec gives no meaning, the refusal mark is raised instead (41_frame_decoder.md R124,
93_implementation_defined.md K33; log 6). -/
def execEdge (c d : Bool) (T : Nat) (s : State) : Result :=
  if gateOpen s.params c s.block && bcOutOfRange s.block then .next (raiseRefuse .bitCountOutOfRange s)
  else .next (s.setBlock (edgeBlock s.params c d T s.block))

/-- NOP: no state is read or written (R106). -/
def execNop (s : State) : Result := .next s

end Sys2Proof.Machine
end

