-- ==== Sys2Proof/Machine/ResetUnit.lean ====
section
/-! DEFINITION. The RESET transaction of 70_reset_and_hazards.md. -/

namespace Sys2Proof.Machine

/-- What RESET writes: every element of the block, whatever it held (R230). -/
def resetBlock : Block where
  bc := 0#6
  nib := nibClear
  prevTs := 0
  mValue := 0#21
  mDp := 0#4
  mPos := true
  slotValue := 0#32
  slotDp := 0#4
  slotPos := true
  isReading := false
  pend := false
  trigOut := false

/-- RESET: the block returns to its reset state; `REFUSED` is not changed (R230). What lies outside the block (the
last read data, the host agent, the inputs to come) is not the block's and stays (log 12). That nothing is armed any
more is kept for the host cycle that R230 (c) speaks of (log 14). -/
def execReset (s : State) : Result := .next ((s.setBlock resetBlock).setArmed false)

end Sys2Proof.Machine
end

