-- ==== Sys2Proof/Machine/Dispatch.lean ====
section
/-! DEFINITION. One arm per transaction. -/

namespace Sys2Proof.Machine

def exec (i : Instr) (s : State) : Host.Outcome State Fault Refusal :=
  match i with
  | .nop => Sys2Proof.Machine.execNop s
  | .reset => Sys2Proof.Machine.execReset s
  | .edge c d T => Sys2Proof.Machine.execEdge c d T s
  | .rdCtrl => Sys2Proof.Machine.execRdCtrl s
  | .rdValue => Sys2Proof.Machine.execRdValue s
  | .rdDp => Sys2Proof.Machine.execRdDp s
  | .rdSign => Sys2Proof.Machine.execRdSign s
  | .wrCtrl wdata => Sys2Proof.Machine.execWrCtrl wdata s
  | .wrValue wdata => Sys2Proof.Machine.execWrValue wdata s
  | .wrDp wdata => Sys2Proof.Machine.execWrDp wdata s
  | .wrSign wdata => Sys2Proof.Machine.execWrSign wdata s

end Sys2Proof.Machine
end

