-- ==== Sys2Proof/Machine/HostAgent.lean ====
section
/-! DEFINITION. The host agent's program `RunOnce` of 43_host_cycle.md, one action at a time: what the next action is,
where the program stands after it, and the turn that takes it. -/

namespace Sys2Proof.Machine

/-- One action of `RunOnce` (43_host_cycle.md R182). -/
inductive HostAction where
  /-- A bus access, `MemRead` or `MemWrite` (00_scope.md R11). -/
  | issue (i : Instr)
  /-- A `delay` returns (00_scope.md R12). -/
  | delayReturns
  /-- `Emit` or `Warn`: the cycle ends. -/
  | report (o : HostOutput)
  deriving DecidableEq, Repr

/-- A malformed result: `dp > 5 or v > 999999` (R188). -/
def malformed (v : Word) (dp : Nibble) : Bool := decide (5 < dp.toNat) || decide (999999 < v.toNat)

/-- The exact value `x = (pos ? v : -v) / 10^dp`, negated when `INVERT_SIGN` (R189). -/
def scaledValue (hp : HostParams) (v : Word) (dp : Nibble) (pos : Bool) : Rat :=
  let x : Rat := (if pos then (v.toNat : Rat) else -(v.toNat : Rat)) / (10 : Rat) ^ dp.toNat
  if hp.invertSign then -x else x

/-- What a successful cycle hands downstream (R188, R189). -/
def cycleResult (hp : HostParams) (v : Word) (dp : Nibble) (pos : Bool) : HostOutput :=
  if malformed v dp then .warn .malformedField else .emit (Config.toFloat (scaledValue hp v dp pos))

/-- Into the poll loop with `n` iterations to come; with none left, past it (R186). -/
def pollOrDeassert : Nat → HostPhase
  | 0 => .deassert
  | n + 1 => .poll n

/-- The host's next action, if it has one: none while idle or inside a delay (R182 to R190). -/
def nextAction (hp : HostParams) : HostPhase → Option HostAction
  | .idle => none
  | .arm => some (.issue (.wrCtrl 0x00000001#32))
  | .trigger => some (.issue (.wrCtrl 0x00000002#32))
  | .settle left => if left = 0 then some .delayReturns else none
  | .poll _ => some (.issue .rdCtrl)
  | .pollSleep left _ => if left = 0 then some .delayReturns else none
  | .deassert => some (.issue (.wrCtrl 0x00000000#32))
  | .verdict => some (.issue .rdCtrl)
  | .timedOut => some (.report (.warn .frameTimeout))
  | .readValue => some (.issue .rdValue)
  | .readDp _ => some (.issue .rdDp)
  | .readSign _ _ => some (.issue .rdSign)
  | .convert v dp pos => some (.report (cycleResult hp v dp pos))

/-- Does the host, having read `r` from CTRL, take its frame as still to come? It does while bit 0 is 1 and at no
other time (R182, R186, R187), unless the parameter `resetTimesOut` takes the other reading: then after a RESET with no
arm since the cleared flag does not count as a completion (70_reset_and_hazards.md R230 (c); log 14). -/
def frameAwaited (hp : HostParams) (armed : Bool) (r : Word) : Bool := ctrlReading r || (hp.resetTimesOut && !armed)

/-- The control point after that action; `armed` tells whether anything was armed since the last RESET, `r` is the word a read returned (R182 to R190). -/
def phaseAfter (hp : HostParams) (armed : Bool) (r : Word) : HostPhase → HostPhase
  | .idle => .idle
  | .arm => if hp.autoTrigger then .trigger else .settle hp.settleMs
  | .trigger => .settle hp.settleMs
  | .settle _ => pollOrDeassert hp.pollIters
  | .poll more => if frameAwaited hp armed r then .pollSleep hp.pollSleepMs more else .deassert
  | .pollSleep _ more => pollOrDeassert more
  | .deassert => .verdict
  | .verdict => if frameAwaited hp armed r then .timedOut else .readValue
  | .timedOut => .idle
  | .readValue => .readDp r
  | .readDp v => .readSign v (r.setWidth 4)
  | .readSign v dp => .convert v dp (r.getLsbD 0)
  | .convert _ _ _ => .idle

/-- The host moves to the control point after its action, with the read data of that action. -/
def advancePhase (s : State) : State :=
  s.setPhase (phaseAfter s.hostParams s.armedSinceReset s.rdata s.host.phase)

/-- A turn of the host: its next action, or nothing while it has none. A bus access is the transaction itself. -/
def hostTurn (s : State) : Result :=
  match nextAction s.hostParams s.host.phase with
  | none => .next s
  | some (.issue i) => andThen (exec i s) advancePhase
  | some .delayReturns => .next (advancePhase s)
  | some (.report o) => .next ((advancePhase s).addOutput o)

/-- The scheduler calls `RunOnce`. Cycles do not overlap, so a call during a cycle is no call (R194; log 7). -/
def callRunOnce (s : State) : State := if s.host.phase = .idle then s.setPhase .arm else s

/-- The rest of a delay after `ms` milliseconds (00_scope.md R12). -/
def phaseAfterTick (ms : Nat) : HostPhase → HostPhase
  | .settle left => .settle (left - ms)
  | .pollSleep left more => .pollSleep (left - ms) more
  | p => p

/-- The time base advances (00_scope.md R12, 60_exceptions.md R211). -/
def passTime (ms : Nat) (s : State) : State := s.setPhase (phaseAfterTick ms s.host.phase)

/-- The abstract states of a cycle (R181). -/
inductive CycleState where
  | idle
  | triggered
  | reading
  | timedOut
  deriving DecidableEq, Repr

/-- The abstract state of a control point (R181). The deassert, the post-loop read and the result reads belong to
`Reading`, which lasts until the cycle is back in Idle or has timed out (DEDUCED, log 7). -/
def cycleState : HostPhase → CycleState
  | .idle => .idle
  | .arm => .triggered
  | .trigger => .triggered
  | .settle _ => .triggered
  | .poll _ => .reading
  | .pollSleep _ _ => .reading
  | .deassert => .reading
  | .verdict => .reading
  | .timedOut => .timedOut
  | .readValue => .reading
  | .readDp _ => .reading
  | .readSign _ _ => .reading
  | .convert _ _ _ => .reading

end Sys2Proof.Machine
end

