-- ==== Sys2Proof/Machine/Turns.lean ====
section
/-! DEFINITION. What one turn does: a transaction from outside is decoded and executed, the host acts, the scheduler
calls, or time passes. -/

namespace Sys2Proof.Machine

/-- A transaction from outside: decoded with the machine's timestamp width; a reserved word raises the refusal mark
and changes nothing else (30_encoding.md R77, R78). -/
def runTransaction (x : Transaction) (s : State) : Result :=
  match decode s.params.tsW x with
  | .instr i => exec i s
  | .reserved w => .next (raiseRefuse (.reservedWord w) s)

/-- One turn, whole and indivisible (20_memory.md R58). -/
def runTurn (t : Turn) (s : State) : Result :=
  match t with
  | .transaction x => runTransaction x s
  | .host => hostTurn s
  | .runOnce => .next (callRunOnce s)
  | .tick ms => .next (passTime ms s)

/-- The next turn is taken off the list and run; with none waiting, the block waits for its next transaction and
nothing changes (70_reset_and_hazards.md R231; log 2). -/
def takeTurn (s : State) : Result :=
  match s.turns with
  | [] => .next s
  | t :: rest => runTurn t (s.setTurns rest)

/-- The machine with one more turn before all others. -/
def pushTurn (t : Turn) (s : State) : State := s.setTurns (t :: s.turns)

end Sys2Proof.Machine
end

