-- ==== Sys2Proof/Machine/Step.lean ====
section
/-! DEFINITION. The step, and the machine with a given transaction placed where the next step takes its input. -/

namespace Sys2Proof.Machine

/-- One step takes one turn. -/
def step (s : State) : Host.Outcome State Fault Refusal := takeTurn s

/-- The machine with the transaction of a table word waiting before all other turns, so that the next step decodes
and runs exactly it (log 13). -/
def State.withFetchWord (s : State) (nbits w : Nat) : State := pushTurn (.transaction (transactionOfBits nbits w)) s

end Sys2Proof.Machine
end

