-- ==== Sys2Proof/Machine/Assembler.lean ====
section
/-! DEFINITION. The assembler syntax of transactions (30_encoding.md R86): timestamps in decimal, write data as eight
hex digits (log 16). -/

namespace Sys2Proof.Machine

/-- A 32-bit constant, `0x` and eight hex digits. -/
def hexWord (v : Word) : String :=
  "0x" ++ String.ofList ((List.range 8).map fun k => (Nat.digitChar (v.toNat / 16 ^ (7 - k) % 16)).toUpper)

/-- A level, `0` or `1`. -/
def levelText (b : Bool) : String := if b then "1" else "0"

/-- The operands as they stand after the mnemonic. -/
def operandText : Instr → String
  | .nop => ""
  | .reset => ""
  | .edge c d T => " " ++ toString T ++ ", " ++ levelText c ++ ", " ++ levelText d
  | .rdCtrl => ""
  | .rdValue => ""
  | .rdDp => ""
  | .rdSign => ""
  | .wrCtrl v => " " ++ hexWord v
  | .wrValue v => " " ++ hexWord v
  | .wrDp v => " " ++ hexWord v
  | .wrSign v => " " ++ hexWord v

/-- One transaction in the spec's syntax (R86). -/
def asmText (i : Instr) : String := mnemonicOf i ++ operandText i

end Sys2Proof.Machine
end

