-- ==== Sys2Proof/Machine/Frame.lean ====
section
/-! DEFINITION. The wire format of the frame and the pseudo-transactions that spell it (30_encoding.md R81 to R87). -/

namespace Sys2Proof.Machine

/-- Arrival bit `b_i` of a frame (R84). -/
def frameBit (F : FrameWord) (i : Nat) : Bool := F.getLsbD i

/-- The final nibble `k` of a frame, `F[4k+3:4k]` (R84). -/
def frameNibble (F : FrameWord) (k : Nat) : Nibble := F.extractLsb' (4 * k) 4

/-- The sign field is nibble 4, 0 positive (R85, 41_frame_decoder.md R127). -/
def framePos (F : FrameWord) : Bool := frameNibble F 4 == 0#4

/-- The value of the six digit fields, nibble 5 the most significant (R85, 41_frame_decoder.md R128). -/
def frameDigits (F : FrameWord) : Nat :=
  (frameNibble F 5).toNat * 100000 + (frameNibble F 6).toNat * 10000 + (frameNibble F 7).toNat * 1000
    + (frameNibble F 8).toNat * 100 + (frameNibble F 9).toNat * 10 + (frameNibble F 10).toNat

/-- The decimal-point field is nibble 11, raw (R85, 41_frame_decoder.md R129). -/
def frameDp (F : FrameWord) : Nibble := frameNibble F 11

/-- `ARM` (R87). -/
def pseudoArm : Instr := .wrCtrl 0x00000001#32

/-- `ARMTRIG` (R87). -/
def pseudoArmTrig : Instr := .wrCtrl 0x00000003#32

/-- `TRIGHI` (R87). -/
def pseudoTrigHi : Instr := .wrCtrl 0x00000002#32

/-- `TRIGLO` (R87). -/
def pseudoTrigLo : Instr := .wrCtrl 0x00000000#32

/-- `BIT T, b`: the edge that hands bit `b` to the decoder (R87). -/
def pseudoBit (p : BlockParams) (T : Nat) (b : Bool) : Instr := .edge p.clkActiveLevel (b ^^ p.dataInvert) T

/-- The bits of a list, each with its timestamp, as edges. -/
def pseudoBits (p : BlockParams) (bits : List (Nat × Bool)) : List Instr := bits.map fun x => pseudoBit p x.1 x.2

/-- `FRAME T0, F`: one whole frame, one bit per millisecond (R87). -/
def pseudoFrame (p : BlockParams) (T0 : Nat) (F : FrameWord) : List Instr :=
  pseudoBits p ((List.range Config.frameLen).map fun i => (T0 + i, frameBit F i))

end Sys2Proof.Machine
end

