-- ==== Sys2Proof/Safety.lean ====
section
/-! DEFINITION. The terms claims are stated in: runs, the invariants of the block and of the host agent, which
transaction a step performs, and the trace of a measurement cycle. -/

namespace Sys2Proof.Machine

/-- `n` steps. -/
def runSteps : Nat → State → Result
  | 0, s => .next s
  | n + 1, s =>
    match step s with
    | .next t => runSteps n t
    | .fault r => .fault r
    | .refused r => .refused r

/-- A run says something of the hardware only if it ends with `REFUSED = 0` (10_state.md R43). -/
def SafeRun (n : Nat) (s : State) : Prop := ∃ t, runSteps n s = .next t ∧ t.refused = false

/-- The invariant of the block at every transaction boundary: the bit count (10_state.md R21), the frame buffer beyond
the bits taken (R23), the width of `PREV_TS` (R24), the bound on the value (R25), the slot's copy of the Measurement
(R28) and no pending edge (R35). -/
structure BlockInv (p : BlockParams) (k : Block) : Prop where
  bc_le : k.bc.toNat ≤ 51
  nib_above : ∀ j, j < 13 → k.bc.toNat / 4 < j → nibAt k.nib j = 0#4
  nib_current : (nibAt k.nib (k.bc.toNat / 4)).toNat % 2 ^ (4 - k.bc.toNat % 4) = 0
  prevTs_lt : k.prevTs < 2 ^ p.tsW
  mValue_le : k.mValue.toNat ≤ 1666665
  slotValue_eq : k.slotValue.toNat = k.mValue.toNat % 2 ^ p.slotValueW
  slotDp_eq : k.slotDp = k.mDp
  slotPos_eq : k.slotPos = k.mPos
  pend_clear : k.pend = false

/-- A host cycle has lost its frame to a RESET with no arm since, in the reading that takes 70_reset_and_hazards.md
R230 (c) as it stands (log 14). -/
def lostToReset (s : State) : Bool := s.hostParams.resetTimesOut && !s.armedSinceReset

/-- The transaction that a turn performs, if it performs one. -/
def turnInstr (s : State) : Turn → Option Instr
  | .transaction x =>
    match decode s.params.tsW x with
    | .instr i => some i
    | .reserved _ => none
  | .host =>
    match nextAction s.hostParams s.host.phase with
    | some (.issue i) => some i
    | some .delayReturns => none
    | some (.report _) => none
    | none => none
  | .runOnce => none
  | .tick _ => none

/-- The transaction that the next step performs, if it performs one. -/
def stepInstr (s : State) : Option Instr := s.turns.head?.bind (turnInstr s)

/-- Does a transaction given from outside interfere with a cycle of the host agent? Another writer of CTRL or a RESET
does; edges, reads and ignored writes do not. -/
def disturbsCycle : Instr → Bool
  | .nop => false
  | .reset => true
  | .edge _ _ _ => false
  | .rdCtrl => false
  | .rdValue => false
  | .rdDp => false
  | .rdSign => false
  | .wrCtrl _ => true
  | .wrValue _ => false
  | .wrDp _ => false
  | .wrSign _ => false

/-- A turn that leaves the host agent alone with the block: no WR.CTRL and no RESET from outside. -/
def quietTurn (tsW : Nat) : Turn → Bool
  | .transaction x =>
    match decode tsW x with
    | .instr i => !disturbsCycle i
    | .reserved _ => true
  | .host => true
  | .runOnce => true
  | .tick _ => true

/-- Can the transaction clear the reading-in-progress flag? EDGE and RESET can. -/
def mayClearFlag : Instr → Bool
  | .nop => false
  | .reset => true
  | .edge _ _ _ => true
  | .rdCtrl => false
  | .rdValue => false
  | .rdDp => false
  | .rdSign => false
  | .wrCtrl _ => false
  | .wrValue _ => false
  | .wrDp _ => false
  | .wrSign _ => false

/-- A turn that cannot clear the reading-in-progress flag: no EDGE and no RESET from outside. -/
def keepsFlag (tsW : Nat) : Turn → Bool
  | .transaction x =>
    match decode tsW x with
    | .instr i => !mayClearFlag i
    | .reserved _ => true
  | .host => true
  | .runOnce => true
  | .tick _ => true

/-- Does the transaction arm the block? -/
def armsBlock : Instr → Bool
  | .nop => false
  | .reset => false
  | .edge _ _ _ => false
  | .rdCtrl => false
  | .rdValue => false
  | .rdDp => false
  | .rdSign => false
  | .wrCtrl v => wdataArm v
  | .wrValue _ => false
  | .wrDp _ => false
  | .wrSign _ => false

/-- A turn from outside the host agent that does not arm the block. -/
def leavesArmingToHost (tsW : Nat) : Turn → Bool
  | .transaction x =>
    match decode tsW x with
    | .instr i => !armsBlock i
    | .reserved _ => true
  | .host => true
  | .runOnce => true
  | .tick _ => true

/-- Does the transaction arm the block or reset it? -/
def armsOrResets (i : Instr) : Bool := armsBlock i || decide (i = .reset)

/-- In the first `n` steps, no step performs a transaction that `P` holds of, whoever issues it. -/
def noStepPerforms (P : Instr → Bool) : Nat → State → Prop
  | 0, _ => True
  | n + 1, s =>
    (∀ i, stepInstr s = some i → P i = false) ∧ ∀ t, step s = .next t → noStepPerforms P n t

/-- The control points of a cycle from its arming write to its verdict. -/
def awaitsVerdict : HostPhase → Bool
  | .trigger | .settle _ | .poll _ | .pollSleep _ _ | .deassert | .verdict => true
  | .idle | .arm | .timedOut | .readValue | .readDp _ | .readSign _ _ | .convert _ _ _ => false

/-- What the host has read belongs to the slot as it stands, and the block is not armed while the host reads it
(42_result_slot.md R174, 20_memory.md R61). -/
def HandoffInv (s : State) : Prop :=
  match s.host.phase with
  | .idle | .arm | .trigger | .settle _ | .poll _ | .pollSleep _ _ | .deassert | .verdict | .timedOut => True
  | .readValue => s.block.isReading = false
  | .readDp v => s.block.isReading = false ∧ v = s.block.slotValue
  | .readSign v dp => s.block.isReading = false ∧ v = s.block.slotValue ∧ dp = s.block.slotDp
  | .convert v dp pos =>
    s.block.isReading = false ∧ v = s.block.slotValue ∧ dp = s.block.slotDp ∧ pos = s.block.slotPos

/-- The trigger level through a cycle: raised (if automatic) from the trigger write to the deassert, low otherwise
(43_host_cycle.md R183, R184, R187, R192). -/
def TriggerInv (s : State) : Prop :=
  match s.host.phase with
  | .settle _ | .poll _ | .pollSleep _ _ | .deassert => s.block.trigOut = s.hostParams.autoTrigger
  | .trigger => s.block.trigOut = false ∧ s.hostParams.autoTrigger = true
  | .idle | .arm | .verdict | .timedOut | .readValue | .readDp _ | .readSign _ _ | .convert _ _ _ =>
    s.block.trigOut = false

/-- How much of a host delay is still to pass. -/
def delayLeft : HostPhase → Nat
  | .settle left => left
  | .pollSleep left _ => left
  | .idle | .arm | .trigger | .poll _ | .deassert | .verdict | .timedOut | .readValue | .readDp _ | .readSign _ _
  | .convert _ _ _ => 0

/-- The most actions the host can still take in its cycle. -/
def actionsLeft (hp : HostParams) : HostPhase → Nat
  | .idle => 0
  | .arm => 9 + 2 * hp.pollIters
  | .trigger => 8 + 2 * hp.pollIters
  | .settle _ => 7 + 2 * hp.pollIters
  | .poll more => 8 + 2 * more
  | .pollSleep _ more => 7 + 2 * more
  | .deassert => 6
  | .verdict => 5
  | .timedOut => 1
  | .readValue => 4
  | .readDp _ => 3
  | .readSign _ _ => 2
  | .convert _ _ _ => 1

/-- The host's action in the next step, if it takes one. -/
def actionsNow (s : State) : List HostAction :=
  match s.turns with
  | [] => []
  | .transaction _ :: _ => []
  | .host :: _ => (nextAction s.hostParams s.host.phase).toList
  | .runOnce :: _ => []
  | .tick _ :: _ => []

/-- The time that passes in the next step. -/
def msNow (s : State) : Nat :=
  match s.turns with
  | [] => 0
  | .transaction _ :: _ => 0
  | .host :: _ => 0
  | .runOnce :: _ => 0
  | .tick ms :: _ => ms

/-- The time that passes in a list of turns. -/
def ticksIn : List Turn → Nat
  | [] => 0
  | .transaction _ :: rest => ticksIn rest
  | .host :: rest => ticksIn rest
  | .runOnce :: rest => ticksIn rest
  | .tick ms :: rest => ms + ticksIn rest

/-- Is the action a bus transaction? -/
def isIssue : HostAction → Bool
  | .issue _ => true
  | .delayReturns => false
  | .report _ => false

/-- The host's actions from here to the end of its cycle, and the time they take, if the cycle ends within `n`
steps. -/
def cycleTrace : Nat → State → Option (List HostAction × Nat)
  | 0, s => if s.host.phase = .idle then some ([], 0) else none
  | n + 1, s =>
    if s.host.phase = .idle then some ([], 0)
    else
      match step s with
      | .next t => (cycleTrace n t).map fun r => (actionsNow s ++ r.1, msNow s + r.2)
      | .fault _ => none
      | .refused _ => none

/-- `(T - prev) mod 2^TS_W`, as an integer (41_frame_decoder.md R121). -/
def gapOf (p : BlockParams) (T prev : Nat) : Int := ((T : Int) - (prev : Int)) % ((2 ^ p.tsW : Nat) : Int)

/-- The edges that hand the bits `f 0, f 1, ..., f (n - 1)`, each with its timestamp, to the decoder, as transactions
of the instrument. -/
def bitTurns (p : BlockParams) (n : Nat) (f : Nat → Nat × Bool) : List Turn :=
  (pseudoBits p ((List.range n).map f)).map fun i => .transaction (encode i)

end Sys2Proof.Machine
end

