-- ==== Sys2Proof/Certificates/Slice0/Obligations.lean ====
section
/-! DEFINITION. The statements for the provers. Each docstring names the rule of spec/ it formalises. -/

open Sys2Proof Sys2Proof.Machine

/-! ## Encoding and the step -/

/-- O1. Some words of the opcode map (30_encoding.md R73 to R76) and some reserved ones (95_test_vectors.md V42 to V46)
decode as the spec says. -/
def Obligations.DecodeReadsSpecWords : Prop :=
  decode 32 ⟨0b00000000#8, 0⟩ = .instr .nop
  ∧ decode 32 ⟨0b00000001#8, 0⟩ = .instr .reset
  ∧ decode 32 ⟨0b00010001#8, 1000⟩ = .instr (.edge false true 1000)
  ∧ decode 32 ⟨0b00010010#8, 11⟩ = .instr (.edge true false 11)
  ∧ decode 32 ⟨0b10000000#8, 0⟩ = .instr .rdCtrl
  ∧ decode 32 ⟨0b10000001#8, 0⟩ = .instr .rdValue
  ∧ decode 32 ⟨0b10000010#8, 0⟩ = .instr .rdDp
  ∧ decode 32 ⟨0b10000011#8, 0⟩ = .instr .rdSign
  ∧ decode 32 ⟨0b11000000#8, 3⟩ = .instr (.wrCtrl 3#32)
  ∧ decode 32 ⟨0b11000001#8, 0xFFFFFFFF⟩ = .instr (.wrValue 0xFFFFFFFF#32)
  ∧ decode 32 ⟨0b11000010#8, 0⟩ = .instr (.wrDp 0#32)
  ∧ decode 32 ⟨0b11000011#8, 1⟩ = .instr (.wrSign 1#32)
  ∧ decode 32 ⟨0x02#8, 0⟩ = .reserved 0x02#8
  ∧ decode 32 ⟨0x14#8, 0⟩ = .reserved 0x14#8
  ∧ decode 32 ⟨0x20#8, 0⟩ = .reserved 0x20#8
  ∧ decode 32 ⟨0x84#8, 0⟩ = .reserved 0x84#8
  ∧ decode 32 ⟨0xFF#8, 0⟩ = .reserved 0xFF#8

/-- O2. The decoding procedure (30_encoding.md R77) is the complete opcode map (R76): a word decodes to the row it
matches, with its fields and operand, and every word in no row is reserved. -/
def Obligations.DecoderIsTheOpcodeMap : Prop :=
  ∀ (tsW : Nat) (w : Code) (n : Nat),
    decode tsW ⟨w, n⟩ =
      if w = 0x00#8 then .instr .nop
      else if w = 0x01#8 then .instr .reset
      else if w &&& 0xFC#8 = 0x10#8 then .instr (.edge (w.getLsbD 1) (w.getLsbD 0) (n % 2 ^ tsW))
      else if w = 0x80#8 then .instr .rdCtrl
      else if w = 0x81#8 then .instr .rdValue
      else if w = 0x82#8 then .instr .rdDp
      else if w = 0x83#8 then .instr .rdSign
      else if w = 0xC0#8 then .instr (.wrCtrl (BitVec.ofNat 32 n))
      else if w = 0xC1#8 then .instr (.wrValue (BitVec.ofNat 32 n))
      else if w = 0xC2#8 then .instr (.wrDp (BitVec.ofNat 32 n))
      else if w = 0xC3#8 then .instr (.wrSign (BitVec.ofNat 32 n))
      else .reserved w

/-- O3. Exactly 14 of the 256 words are assigned, whatever the operand (30_encoding.md R77). -/
def Obligations.ExactlyFourteenWordsAssigned : Prop :=
  ∀ (tsW n : Nat),
    ((List.range 256).filter fun w => decode tsW ⟨BitVec.ofNat 8 w, n⟩ ≠ .reserved (BitVec.ofNat 8 w)).length = 14

/-- O4. Decode and encode agree, for every transaction and every operand: decoding an encoded well-formed transaction
gives it back; what the decoder gives is well formed, encodes to the word it came from and has that word in its row of
the opcode map; a word in the row of a mnemonic decodes to that mnemonic, whatever the operand; a word in no row is
reserved; and no word belongs to the rows of two mnemonics. -/
def Obligations.DecodeAndEncodeAgree : Prop :=
  (∀ (tsW : Nat) (i : Instr), i.wf tsW = true → decode tsW (encode i) = .instr i)
  ∧ (∀ (tsW : Nat) (x : Transaction) (i : Instr), decode tsW x = .instr i →
      i.wf tsW = true ∧ (encode i).word = x.word ∧ matchesRow x.word i = true)
  ∧ (∀ (tsW n : Nat) (w : Code) (i : Instr), matchesRow w i = true →
      ∃ j, decode tsW ⟨w, n⟩ = .instr j ∧ mnemonicOf j = mnemonicOf i)
  ∧ (∀ (tsW n : Nat) (w : Code), (∀ i, matchesRow w i = false) → decode tsW ⟨w, n⟩ = .reserved w)
  ∧ (∀ (w : Code) (i j : Instr), matchesRow w i = true → matchesRow w j = true → mnemonicOf i = mnemonicOf j)

/-- O5. A step runs the decoded transaction: where the next turn is a transaction from outside whose word decodes to
`i`, the step is `exec i` on the machine without that turn; and the transaction of `withFetchWord` is what the very
next step runs. Where the host's turn is next and its action is to issue `i`, the step is `exec i` likewise, and after
it only the host's control point moves. -/
def Obligations.StepRunsDecodedTransaction : Prop :=
  (∀ (s : State) (x : Transaction) (rest : List Turn) (i : Instr),
    s.turns = .transaction x :: rest → decode s.params.tsW x = .instr i →
    step s = exec i { s with turns := rest })
  ∧ (∀ (s : State) (nbits w : Nat) (i : Instr),
    decode s.params.tsW (transactionOfBits nbits w) = .instr i → step (s.withFetchWord nbits w) = exec i s)
  ∧ (∀ (s : State) (rest : List Turn) (i : Instr),
    s.turns = .host :: rest → nextAction s.hostParams s.host.phase = some (.issue i) →
    ∃ (u : State) (q : HostPhase), exec i { s with turns := rest } = .next u
      ∧ step s = .next { u with host := { u.host with phase := q } })

/-- O6. A reserved word sets `REFUSED` and changes no other state (30_encoding.md R78). -/
def Obligations.ReservedWordOnlyRefuses : Prop :=
  ∀ (s : State) (x : Transaction) (rest : List Turn) (w : Code),
    s.turns = .transaction x :: rest → decode s.params.tsW x = .reserved w →
    step s = .next { s with turns := rest, refused := true }

/-- O7. `REFUSED` is 0 initially, is set by a word without meaning and by nothing else, and is never cleared, not even
by RESET (10_state.md R43). In a state that no run reaches (`BC > 51`) an edge may set it too (log 6), so the block's
invariant is a premise. -/
def Obligations.RefusedIsStickyAndOnlyForReservedWords : Prop :=
  State.reset.refused = false
  ∧ ∀ (s t : State), BlockInv s.params s.block → step s = .next t →
      (t.refused = true ↔
        s.refused = true ∨
          ∃ x rest w, s.turns = .transaction x :: rest ∧ decode s.params.tsW x = .reserved w)

/-- O8. No block state is stuck by any input: every transaction completes, every step gives a next state, and RESET
restores the reset state from any state (60_exceptions.md R201). -/
def Obligations.EveryTransactionCompletes : Prop :=
  (∀ (i : Instr) (s : State), ∃ t, exec i s = .next t)
  ∧ (∀ s : State, ∃ t, step s = .next t)
  ∧ (∀ s : State, ∃ t, exec .reset s = .next t ∧ t.block = State.reset.block)

/-! ## RESET and NOP -/

/-- O9. RESET writes every element of the block, from any state (70_reset_and_hazards.md R230). That it leaves the last
read data, the host agent, the inputs to come and `REFUSED` is the model's choice (log 12), and so is the bookkeeping
that nothing is armed any more (log 14). -/
def Obligations.ResetRestoresTheBlock : Prop :=
  ∀ s : State, exec .reset s = .next { s with
    armedSinceReset := false
    block :=
      { bc := 0#6, nib := Vector.replicate 13 0#4, prevTs := 0, mValue := 0#21, mDp := 0#4, mPos := true,
        slotValue := 0#32, slotDp := 0#4, slotPos := true, isReading := false, pend := false, trigOut := false } }

/-- O10. Power-on gives the state RESET gives, with `REFUSED = 0`: not armed, trigger deasserted, and every edge gated
off (70_reset_and_hazards.md R231). -/
def Obligations.PowerOnIsTheResetState : Prop :=
  (∀ s t : State, exec .reset s = .next t → t.block = State.reset.block)
  ∧ State.reset.refused = false
  ∧ State.reset.block.isReading = false
  ∧ State.reset.block.trigOut = false
  ∧ ∀ (c d : Bool) (T : Nat), exec (.edge c d T) State.reset = .next State.reset

/-- O11. The reset values a host can read: 0, 0, 0, 1 (70_reset_and_hazards.md R232). -/
def Obligations.ResetValuesAsRead : Prop :=
  ∀ s t : State, exec .reset s = .next t →
    exec .rdCtrl t = .next { t with rdata := 0x00000000#32 }
    ∧ exec .rdValue t = .next { t with rdata := 0x00000000#32 }
    ∧ exec .rdDp t = .next { t with rdata := 0x00000000#32 }
    ∧ exec .rdSign t = .next { t with rdata := 0x00000001#32 }

/-- O12. NOP reads and writes no state (40_edge_sampler.md R106). -/
def Obligations.NopChangesNothing : Prop := ∀ s : State, exec .nop s = .next s

/-! ## EDGE and the frame decoder -/

/-- O13. An edge whose gate is closed (not armed, or the clock sampled at the inactive level) changes nothing but that
no edge is pending after it (40_edge_sampler.md R102, R104, R105 a and b). -/
def Obligations.GatedEdgeChangesNothing : Prop :=
  ∀ (c d : Bool) (T : Nat) (s : State),
    s.block.isReading = false ∨ c ≠ s.params.clkActiveLevel →
    exec (.edge c d T) s = .next { s with block := { s.block with pend := false } }

/-- O14. An edge with its gate open, no more than `MAX_BIT_WAIT` after the last accepted bit and before the 52nd bit
of its frame: `PREV_TS <- T`, the bit goes into the top of nibble `BC div 4`, `BC` counts it, and nothing else changes
(40_edge_sampler.md R105; 41_frame_decoder.md R121, R122, R123). -/
def Obligations.EdgeShiftsItsBitIn : Prop :=
  ∀ (c d : Bool) (T : Nat) (s : State),
    s.block.isReading = true → c = s.params.clkActiveLevel → s.block.bc.toNat ≤ 50 →
    gapOf s.params T s.block.prevTs ≤ s.params.maxBitWait →
    ∃ v : Nibbles,
      exec (.edge c d T) s = .next { s with
        block := { s.block with
          bc := BitVec.ofNat 6 (s.block.bc.toNat + 1), nib := v, prevTs := T % 2 ^ s.params.tsW, pend := false } }
      ∧ ∀ j, j < 13 →
          (nibAt v j).toNat =
            if j = s.block.bc.toNat / 4
            then (nibAt s.block.nib j).toNat / 2 + (if d = s.params.dataInvert then 0 else 8)
            else (nibAt s.block.nib j).toNat

/-- O15. An edge with its gate open, more than `MAX_BIT_WAIT` after the last accepted bit: whatever the buffer held is
discarded and the bit is the first of a new frame; nothing is completed or published
(41_frame_decoder.md R121, R122, R123; 40_edge_sampler.md R105 d). -/
def Obligations.EdgeAfterGapStartsNewFrame : Prop :=
  ∀ (c d : Bool) (T : Nat) (s : State),
    s.block.isReading = true → c = s.params.clkActiveLevel → s.block.bc.toNat ≤ 51 →
    gapOf s.params T s.block.prevTs > s.params.maxBitWait →
    ∃ v : Nibbles,
      exec (.edge c d T) s = .next { s with
        block := { s.block with bc := 1#6, nib := v, prevTs := T % 2 ^ s.params.tsW, pend := false } }
      ∧ ∀ j, j < 13 → (nibAt v j).toNat = if j = 0 ∧ d ≠ s.params.dataInvert then 8 else 0

/-- O16. The 52nd accepted bit: the Measurement is written from nibbles 4 to 11, the buffer and the count are cleared,
the slot gets the Measurement and `IS_READING` is cleared, all in this one transaction
(41_frame_decoder.md R125 to R129; 42_result_slot.md R150; 40_edge_sampler.md R103, R105 c). -/
def Obligations.FiftySecondBitCompletesAndPublishes : Prop :=
  ∀ (c d : Bool) (T : Nat) (s : State) (value : Nat),
    s.block.isReading = true → c = s.params.clkActiveLevel → s.block.bc.toNat = 51 →
    gapOf s.params T s.block.prevTs ≤ s.params.maxBitWait →
    value = (nibAt s.block.nib 5).toNat * 100000 + (nibAt s.block.nib 6).toNat * 10000
      + (nibAt s.block.nib 7).toNat * 1000 + (nibAt s.block.nib 8).toNat * 100
      + (nibAt s.block.nib 9).toNat * 10 + (nibAt s.block.nib 10).toNat →
    exec (.edge c d T) s = .next { s with
      block := { s.block with
        bc := 0#6, nib := Vector.replicate 13 0#4, prevTs := T % 2 ^ s.params.tsW,
        mValue := BitVec.ofNat 21 value, mDp := nibAt s.block.nib 11, mPos := decide (nibAt s.block.nib 4 = 0#4),
        slotValue := BitVec.ofNat 32 (value % 2 ^ s.params.slotValueW), slotDp := nibAt s.block.nib 11,
        slotPos := decide (nibAt s.block.nib 4 = 0#4), isReading := false, pend := false } }
    ∧ value < 2 ^ 21

/-- O17. Every edge leaves `PEND = 0`, whether or not its gate was open (40_edge_sampler.md R104), and changes nothing
outside the block and not the trigger level. -/
def Obligations.EdgeFrame : Prop :=
  ∀ (c d : Bool) (T : Nat) (s : State), s.block.bc.toNat ≤ 51 →
    ∃ k : Block, exec (.edge c d T) s = .next { s with block := k } ∧ k.pend = false
      ∧ k.trigOut = s.block.trigOut
      ∧ (k.isReading = true → s.block.isReading = true)

/-- O18. The model's treatment of a state no run reaches (log 6; 93_implementation_defined.md K33): where the decoder
would be called with `BC > 51`, `REFUSED` is set and nothing else changes. -/
def Obligations.EdgeBeyondBitCountRefuses : Prop :=
  ∀ (c d : Bool) (T : Nat) (s : State),
    s.block.isReading = true → c = s.params.clkActiveLevel → 51 < s.block.bc.toNat →
    exec (.edge c d T) s = .next { s with refused := true }

/-- O19. Gap reset, the component rule (41_frame_decoder.md R121): count and buffer are cleared when the modular
difference exceeds `MAX_BIT_WAIT`, strictly, and nothing happens otherwise. -/
def Obligations.GapResetRule : Prop :=
  ∀ (p : BlockParams) (T : Nat) (k : Block),
    (gapOf p T k.prevTs > p.maxBitWait →
      gapReset p T k = { k with bc := 0#6, nib := Vector.replicate 13 0#4 })
    ∧ (gapOf p T k.prevTs ≤ p.maxBitWait → gapReset p T k = k)

/-- O20. Bit accumulation, the component rule (41_frame_decoder.md R123): four shifts into a nibble leave the first
bit to arrive in bit 0, whatever the nibble held. -/
def Obligations.NibbleIsLeastSignificantBitFirst : Prop :=
  ∀ (n : Nibble) (b0 b1 b2 b3 : Bool),
    (shiftIn b3 (shiftIn b2 (shiftIn b1 (shiftIn b0 n)))).toNat =
      b3.toNat * 8 + b2.toNat * 4 + b1.toNat * 2 + b0.toNat

/-- O21. The sign field (41_frame_decoder.md R127): nibble 4 is 0 for positive and any other value for negative; the
completion writes it so, and the raw decimal point (R129). -/
def Obligations.CompletionReadsSignAndPoint : Prop :=
  ∀ k : Block,
    ((completeFrame k).mPos = true ↔ (nibAt k.nib 4).toNat = 0) ∧ (completeFrame k).mDp = nibAt k.nib 11

/-- O22. The value field (41_frame_decoder.md R128): the weighted sum of nibbles 5 to 10, unvalidated and exact in 21
bits. -/
def Obligations.CompletionComputesTheValue : Prop :=
  ∀ k : Block,
    (completeFrame k).mValue.toNat =
      (nibAt k.nib 5).toNat * 100000 + (nibAt k.nib 6).toNat * 10000 + (nibAt k.nib 7).toNat * 1000
        + (nibAt k.nib 8).toNat * 100 + (nibAt k.nib 9).toNat * 10 + (nibAt k.nib 10).toNat
    ∧ (completeFrame k).mValue.toNat ≤ 1666665

/-! ## Whole frames -/

/-- O23. A whole frame (41_frame_decoder.md R132, R134; 30_encoding.md R84, R85): from any armed state at a frame
boundary, 52 bits with no gap above `MAX_BIT_WAIT` between them complete at the 52nd and not before, and then
Measurement and slot are the fields of the frame word, whatever the buffer held before and whatever the timestamps. -/
def Obligations.WholeFrameIsDecodedAndPublished : Prop :=
  ∀ (s : State) (F : FrameWord) (ts : Nat → Nat) (rest : List Turn),
    s.block.isReading = true → s.block.bc = 0#6 →
    (∀ i, i + 1 < 52 → gapOf s.params (ts (i + 1)) (ts i) ≤ s.params.maxBitWait) →
    s.turns = bitTurns s.params 52 (fun i => (ts i, frameBit F i)) ++ rest →
    (∀ n, n < 52 → ∃ t, runSteps n s = .next t ∧ t.block.isReading = true ∧ t.block.bc.toNat = n
      ∧ t.block.slotValue = s.block.slotValue ∧ t.block.slotDp = s.block.slotDp ∧ t.block.slotPos = s.block.slotPos
      ∧ t.block.mValue = s.block.mValue ∧ t.block.mDp = s.block.mDp ∧ t.block.mPos = s.block.mPos)
    ∧ runSteps 52 s = .next { s with
        turns := rest,
        block := { s.block with
          bc := 0#6, nib := Vector.replicate 13 0#4, prevTs := ts 51 % 2 ^ s.params.tsW,
          mValue := BitVec.ofNat 21 (frameDigits F), mDp := frameDp F, mPos := framePos F,
          slotValue := BitVec.ofNat 32 (frameDigits F % 2 ^ s.params.slotValueW), slotDp := frameDp F,
          slotPos := framePos F, isReading := false, pend := false } }

/-- O24. A gap inside a frame (41_frame_decoder.md R133): with a gap above `MAX_BIT_WAIT` before bit `m`, the count is
1 after that bit, and no completion is reported at the original 52nd-bit position: 52 edges leave the block armed with
`52 - m` bits of the new frame and the old slot. -/
def Obligations.GapInsideAFrameDiscardsIt : Prop :=
  ∀ (s : State) (f : Nat → Nat × Bool) (m : Nat) (rest : List Turn),
    s.block.isReading = true → s.block.bc = 0#6 → 0 < m → m < 52 →
    (∀ i, i + 1 < 52 → i + 1 ≠ m → gapOf s.params (f (i + 1)).1 (f i).1 ≤ s.params.maxBitWait) →
    gapOf s.params (f m).1 (f (m - 1)).1 > s.params.maxBitWait →
    s.turns = bitTurns s.params 52 f ++ rest →
    (∃ t, runSteps (m + 1) s = .next t ∧ t.block.bc = 1#6)
    ∧ ∀ n, n ≤ 52 → ∃ t, runSteps n s = .next t ∧ t.block.isReading = true
        ∧ t.block.bc.toNat = (if n ≤ m then n else n - m)
        ∧ t.block.slotValue = s.block.slotValue ∧ t.block.slotDp = s.block.slotDp
        ∧ t.block.slotPos = s.block.slotPos

/-- O25. A stale partial frame (70_reset_and_hazards.md R244; 41_frame_decoder.md R125, R131): with `m` bits already in
the buffer and no gap, the new bits continue the old frame, and it completes at the `(52 - m)`th new bit and not
before. -/
def Obligations.StalePartialFrameCompletesEarly : Prop :=
  ∀ (s : State) (f : Nat → Nat × Bool) (m : Nat) (rest : List Turn),
    s.block.isReading = true → s.block.bc.toNat = m → m ≤ 51 →
    gapOf s.params (f 0).1 s.block.prevTs ≤ s.params.maxBitWait →
    (∀ i, i + 1 < 52 - m → gapOf s.params (f (i + 1)).1 (f i).1 ≤ s.params.maxBitWait) →
    s.turns = bitTurns s.params (52 - m) f ++ rest →
    (∀ n, n < 52 - m → ∃ t, runSteps n s = .next t ∧ t.block.isReading = true ∧ t.block.bc.toNat = m + n)
    ∧ ∃ t, runSteps (52 - m) s = .next t ∧ t.block.isReading = false ∧ t.block.bc = 0#6 ∧ t.turns = rest

/-! ## Host reads and writes -/

/-- O26. RD.CTRL returns `zext_32(TRIG_OUT || IS_READING)` and has no side effect (42_result_slot.md R170). -/
def Obligations.ReadOfCtrl : Prop :=
  ∀ s : State, exec .rdCtrl s = .next { s with
    rdata := BitVec.ofNat 32 (2 * s.block.trigOut.toNat + s.block.isReading.toNat) }

/-- O27. RD.VALUE returns `zext_32(SLOT_VALUE)` (42_result_slot.md R171). -/
def Obligations.ReadOfValue : Prop := ∀ s : State, exec .rdValue s = .next { s with rdata := s.block.slotValue }

/-- O28. RD.DP returns `zext_32(SLOT_DP)` and RD.SIGN `zext_32(SLOT_POS)` (42_result_slot.md R172, R173). -/
def Obligations.ReadsOfPointAndSign : Prop :=
  ∀ s : State,
    exec .rdDp s = .next { s with rdata := BitVec.ofNat 32 s.block.slotDp.toNat }
    ∧ exec .rdSign s = .next { s with rdata := BitVec.ofNat 32 s.block.slotPos.toNat }

/-- O29. WR.CTRL sets `IS_READING` when bit 0 is 1 and leaves it otherwise, and sets `TRIG_OUT` to bit 1; bits 31:2
are ignored (42_result_slot.md R160). The model's bookkeeping `a` of arms is no state of the block; O56 says its
value. -/
def Obligations.WriteOfCtrl : Prop :=
  ∀ (v : Word) (s : State), ∃ a : Bool, exec (.wrCtrl v) s = .next { s with
    armedSinceReset := a
    block := { s.block with
      isReading := if v.toNat % 2 = 1 then true else s.block.isReading
      trigOut := decide (v.toNat / 2 % 2 = 1) } }

/-- O30. Writes to the RESULT registers write no state and are not refused (42_result_slot.md R161, R162, R163). -/
def Obligations.WritesOfResultsAreIgnored : Prop :=
  ∀ (v : Word) (s : State),
    exec (.wrValue v) s = .next s ∧ exec (.wrDp v) s = .next s ∧ exec (.wrSign v) s = .next s

/-- O31. Reads have no side effects, two reads with nothing between them return the same word, and a write of CTRL is
idempotent (20_memory.md R55). -/
def Obligations.ReadsAreRepeatableAndWritesIdempotent : Prop :=
  (∀ (i : Instr) (s t u : State), i = .rdCtrl ∨ i = .rdValue ∨ i = .rdDp ∨ i = .rdSign →
    exec i s = .next t → exec i t = .next u → { t with rdata := s.rdata } = s ∧ u.rdata = t.rdata)
  ∧ (∀ (v : Word) (s t : State), exec (.wrCtrl v) s = .next t → exec (.wrCtrl v) t = .next t)

/-! ## Rules of the whole machine -/

/-- O32. The block's invariant holds at power-on. -/
def Obligations.BlockInvAtReset : Prop := BlockInv State.reset.params State.reset.block

/-- O33. Every step, of whatever agent, keeps the block's invariant (10_state.md R21, R23, R24, R25, R28, R35). -/
def Obligations.StepKeepsBlockInv : Prop :=
  ∀ s t : State, BlockInv s.params s.block → step s = .next t → BlockInv t.params t.block

/-- O34. No transaction changes the parameters, so none alters how a later word is decoded (20_memory.md R65). -/
def Obligations.ParametersNeverChange : Prop :=
  ∀ s t : State, step s = .next t →
    t.params = s.params ∧ t.hostParams = s.hostParams ∧ decode t.params.tsW = decode s.params.tsW

/-- O35. Who writes what (10_state.md R44): in one step, the decoder's state, the Measurement, the slot and `PEND`
change only by EDGE or RESET, `TRIG_OUT` only by WR.CTRL or RESET, `IS_READING` only by those three. That the last read
data `rdata` changes only by a read is the model's choice (log 4). -/
def Obligations.OnlyTheNamedWritersWrite : Prop :=
  ∀ s t : State, step s = .next t →
    ((t.block.bc ≠ s.block.bc ∨ t.block.nib ≠ s.block.nib ∨ t.block.prevTs ≠ s.block.prevTs
        ∨ t.block.mValue ≠ s.block.mValue ∨ t.block.mDp ≠ s.block.mDp ∨ t.block.mPos ≠ s.block.mPos
        ∨ t.block.slotValue ≠ s.block.slotValue ∨ t.block.slotDp ≠ s.block.slotDp
        ∨ t.block.slotPos ≠ s.block.slotPos ∨ t.block.pend ≠ s.block.pend) →
      (∃ c d T, stepInstr s = some (.edge c d T)) ∨ stepInstr s = some .reset)
    ∧ (t.block.trigOut ≠ s.block.trigOut → (∃ v, stepInstr s = some (.wrCtrl v)) ∨ stepInstr s = some .reset)
    ∧ (t.block.isReading ≠ s.block.isReading →
      (∃ c d T, stepInstr s = some (.edge c d T)) ∨ (∃ v, stepInstr s = some (.wrCtrl v))
        ∨ stepInstr s = some .reset)
    ∧ (t.rdata ≠ s.rdata → stepInstr s = some .rdCtrl ∨ stepInstr s = some .rdValue ∨ stepInstr s = some .rdDp
        ∨ stepInstr s = some .rdSign)

/-- O36. The flag's writers (10_state.md R34): a step sets `IS_READING` only by a write of 1 to CTRL bit 0, and clears
it only by RESET or by an edge that publishes; no host write clears it. -/
def Obligations.FlagIsSetByArmAndClearedByPublish : Prop :=
  ∀ s t : State, step s = .next t →
    (s.block.isReading = false → t.block.isReading = true →
      ∃ v, stepInstr s = some (.wrCtrl v) ∧ v.getLsbD 0 = true)
    ∧ (s.block.isReading = true → t.block.isReading = false →
      stepInstr s = some .reset ∨
        ∃ c d T, stepInstr s = some (.edge c d T) ∧ t.block.bc = 0#6
          ∧ t.block.slotValue.toNat = t.block.mValue.toNat % 2 ^ s.params.slotValueW
          ∧ t.block.slotDp = t.block.mDp ∧ t.block.slotPos = t.block.mPos)

/-- O37. Atomic publish (20_memory.md R59; 42_result_slot.md R150 (a)): in a step that is not a RESET, a change of the
slot comes with the clearing of the flag, and the clearing of the flag comes with the whole slot being the Measurement
of that step; so the host sees neither the new slot with the flag still set nor the old one with the flag clear. -/
def Obligations.SlotAndFlagChangeTogether : Prop :=
  ∀ s t : State, step s = .next t → stepInstr s ≠ some .reset →
    ((t.block.slotValue ≠ s.block.slotValue ∨ t.block.slotDp ≠ s.block.slotDp ∨ t.block.slotPos ≠ s.block.slotPos) →
      s.block.isReading = true ∧ t.block.isReading = false)
    ∧ (s.block.isReading = true → t.block.isReading = false →
      s.block.bc.toNat = 51 ∧ t.block.bc = 0#6
        ∧ t.block.slotValue.toNat = t.block.mValue.toNat % 2 ^ s.params.slotValueW
        ∧ t.block.slotDp = t.block.mDp ∧ t.block.slotPos = t.block.mPos
        ∧ t.block.mDp = nibAt s.block.nib 11 ∧ t.block.mPos = decide (nibAt s.block.nib 4 = 0#4))

/-- O38. Slot stability while not armed (20_memory.md R61; 40_edge_sampler.md R105 c): through any number of steps of
which none arms and none resets, whoever takes them (edges, reads, other writes, the host agent's own turns, time), an
unarmed block keeps its flag clear, its slot and its Measurement. -/
def Obligations.UnarmedBlockKeepsItsSlot : Prop :=
  ∀ (n : Nat) (s t : State), s.block.isReading = false → noStepPerforms armsOrResets n s →
    runSteps n s = .next t →
    t.block.isReading = false ∧ t.block.slotValue = s.block.slotValue ∧ t.block.slotDp = s.block.slotDp
    ∧ t.block.slotPos = s.block.slotPos ∧ t.block.mValue = s.block.mValue ∧ t.block.mDp = s.block.mDp
    ∧ t.block.mPos = s.block.mPos

/-! ## The host agent -/

/-- O39. Arm and trigger (43_host_cycle.md R183, R184): the cycle first writes CTRL with bit 0 = 1 and trigger low,
then, if automatic, raises the trigger and leaves the flag. The model's bookkeeping `a` of arms is no state of the
block; O56 says its value. -/
def Obligations.CycleArmsThenTriggers : Prop :=
  ∀ (s : State) (rest : List Turn), s.turns = .host :: rest →
    (s.host.phase = .arm →
      ∃ a : Bool, step s = .next { s with
        turns := rest, armedSinceReset := a, block := { s.block with isReading := true, trigOut := false },
        host := { s.host with
          phase := if s.hostParams.autoTrigger then .trigger else .settle s.hostParams.settleMs } })
    ∧ (s.host.phase = .trigger →
      step s = .next { s with
        turns := rest, block := { s.block with trigOut := true },
        host := { s.host with phase := .settle s.hostParams.settleMs } })

/-- O40. The poll loop (43_host_cycle.md R186): it begins when the settle delay has passed, with `POLL_ITERS`
iterations to come; an iteration reads CTRL and leaves the loop if bit 0 is 0; otherwise it sleeps `POLL_SLEEP_MS`,
and only when that delay has passed does the next iteration begin, if one is left. After a RESET with no arm since,
the cleared flag does not end the loop where the parameter `resetTimesOut` takes the reading of
70_reset_and_hazards.md R230 (c), which is not the default (log 14; O59). -/
def Obligations.PollChecksThenSleeps : Prop :=
  ∀ (s : State) (rest : List Turn) (left more : Nat), s.turns = .host :: rest →
    (s.host.phase = .settle 0 →
      step s = .next { s with
        turns := rest,
        host := { s.host with
          phase := if s.hostParams.pollIters = 0 then .deassert else .poll (s.hostParams.pollIters - 1) } })
    ∧ (s.host.phase = .poll more →
      step s = .next { s with
        turns := rest, rdata := BitVec.ofNat 32 (2 * s.block.trigOut.toNat + s.block.isReading.toNat),
        host := { s.host with
          phase := if s.block.isReading || lostToReset s then .pollSleep s.hostParams.pollSleepMs more else .deassert } })
    ∧ (s.host.phase = .pollSleep left more →
      step s = .next { s with
        turns := rest,
        host := { s.host with
          phase :=
            if left ≠ 0 then .pollSleep left more else if more = 0 then .deassert else .poll (more - 1) } })

/-- O41. Deassert and verdict (43_host_cycle.md R187): after the loop the host writes CTRL 0, which lowers the trigger
and leaves the flag, then reads CTRL once more: flag set is a timeout, flag clear is success; but after a RESET with no
arm since it is a timeout where the parameter `resetTimesOut` takes the reading of 70_reset_and_hazards.md R230 (c),
which is not the default (log 14; O59). -/
def Obligations.CycleDeassertsThenDecides : Prop :=
  ∀ (s : State) (rest : List Turn), s.turns = .host :: rest →
    (s.host.phase = .deassert →
      step s = .next { s with
        turns := rest, block := { s.block with trigOut := false }, host := { s.host with phase := .verdict } })
    ∧ (s.host.phase = .verdict →
      step s = .next { s with
        turns := rest, rdata := BitVec.ofNat 32 (2 * s.block.trigOut.toNat + s.block.isReading.toNat),
        host := { s.host with
          phase := if s.block.isReading || lostToReset s then .timedOut else .readValue } })

/-- O42. What the host has read is the slot, and the block stays unarmed while it reads (42_result_slot.md R174):
every step keeps this, under any edges, reads and other turns, as long as nobody else writes CTRL or resets. -/
def Obligations.StepKeepsHandoff : Prop :=
  ∀ s t : State, HandoffInv s → (∀ x, s.turns.head? = some x → quietTurn s.params.tsW x = true) →
    step s = .next t → HandoffInv t

/-- O43. The result of a cycle (43_host_cycle.md R188, R189): under the hand-off invariant, the host's last action of
a successful cycle warns `malformed_field` if the slot's decimal point is above 5 or its value above 999999, and
otherwise emits `TO_FLOAT` of the slot's signed value over `10^dp`, negated under `INVERT_SIGN`. -/
def Obligations.CycleReportsTheSlot : Prop :=
  ∀ (s : State) (rest : List Turn) (v : Word) (dp : Nibble) (pos : Bool) (x : Rat),
    HandoffInv s → s.turns = .host :: rest → s.host.phase = .convert v dp pos →
    x = (if s.block.slotPos then 1 else -1) * (s.block.slotValue.toNat : Rat) / (10 : Rat) ^ s.block.slotDp.toNat →
    step s = .next { s with
      turns := rest,
      host :=
        { phase := .idle,
          outputs :=
            (if 5 < s.block.slotDp.toNat ∨ 999999 < s.block.slotValue.toNat then .warn .malformedField
              else .emit (Config.toFloat (if s.hostParams.invertSign then -x else x))) :: s.host.outputs } }

/-- O44. The trigger level through a cycle (43_host_cycle.md R192): every step keeps the trigger raised (if automatic)
from the trigger write to the deassert and low otherwise, as long as nobody else writes CTRL or resets. -/
def Obligations.StepKeepsTriggerLevel : Prop :=
  ∀ s t : State, TriggerInv s → (∀ x, s.turns.head? = some x → quietTurn s.params.tsW x = true) →
    step s = .next t → TriggerInv t

/-- O45. Both invariants of the host agent hold at power-on. The idle host there is the model's choice (log 10). -/
def Obligations.HostInvsAtReset : Prop := HandoffInv State.reset ∧ TriggerInv State.reset

/-- O46. The whole of `RunOnce` (43_host_cycle.md R182; R191, R192, R193): in every environment, a finished cycle is
arm, trigger if automatic, settle, `m` unsuccessful polls each followed by a sleep, a successful poll if the loop broke
off, one deassert, one verdict read, and then either the timeout warning or the three result reads and one report. -/
def Obligations.FinishedCycleHasTheShapeOfRunOnce : Prop :=
  ∀ (n : Nat) (s : State) (acts : List HostAction) (ms : Nat),
    s.host.phase = .arm → cycleTrace n s = some (acts, ms) →
    ∃ (m : Nat) (broke : Bool) (tail : List HostAction),
      acts = [.issue (.wrCtrl 1#32)]
        ++ (if s.hostParams.autoTrigger then [.issue (.wrCtrl 2#32)] else [])
        ++ [.delayReturns]
        ++ (List.replicate m [.issue .rdCtrl, .delayReturns]).flatten
        ++ (if broke then [.issue .rdCtrl] else [])
        ++ [.issue (.wrCtrl 0#32), .issue .rdCtrl]
        ++ tail
      ∧ (if broke then m < s.hostParams.pollIters else m = s.hostParams.pollIters)
      ∧ (tail = [.report (.warn .frameTimeout)]
        ∨ ∃ v dp pos, tail =
            [.issue .rdValue, .issue .rdDp, .issue .rdSign, .report (cycleResult s.hostParams v dp pos)])
      ∧ s.hostParams.settleMs + m * s.hostParams.pollSleepMs ≤ ms

/-- O47. A cycle ends (43_host_cycle.md R191): a host turn outside an unexpired delay uses up one of a bounded number
of actions (at most 65 at the defaults, 35 of them transactions), no other turn adds one, and the passing of time
expires a delay. -/
def Obligations.CycleUsesUpItsActions : Prop :=
  ∀ (s t : State), step s = .next t → s.host.phase ≠ .idle →
    actionsLeft t.hostParams t.host.phase ≤ actionsLeft s.hostParams s.host.phase
    ∧ (s.turns.head? = some .host → delayLeft s.host.phase = 0 →
        actionsLeft t.hostParams t.host.phase < actionsLeft s.hostParams s.host.phase)
    ∧ (∀ ms, s.turns.head? = some (.tick ms) → delayLeft t.host.phase = delayLeft s.host.phase - ms)

/-- O48. One output at most (43_host_cycle.md R193, R190): a step whose action is to report `o` hands exactly `o`
downstream and ends the cycle, and every other step leaves the outputs; and the last step of a timed-out cycle, whole,
is to warn of the frame timeout. -/
def Obligations.OneOutputPerCycle : Prop :=
  (∀ s t : State, step s = .next t →
    (∀ o, actionsNow s = [.report o] →
      s.host.phase ≠ .idle ∧ t.host.phase = .idle ∧ t.host.outputs = o :: s.host.outputs)
    ∧ ((∀ o, actionsNow s ≠ [.report o]) → t.host.outputs = s.host.outputs))
  ∧ ∀ (s : State) (rest : List Turn), s.turns = .host :: rest → s.host.phase = .timedOut →
    step s = .next { s with
      turns := rest, host := { phase := .idle, outputs := .warn .frameTimeout :: s.host.outputs } }

/-- O49. Timeout (43_host_cycle.md R190): a cycle in which nothing can clear the flag (no EDGE and no RESET among the
turns) reports the frame timeout and emits no value. -/
def Obligations.CycleWithoutEdgesTimesOut : Prop :=
  ∀ (n : Nat) (s : State) (acts : List HostAction) (ms : Nat),
    s.host.phase = .arm → (∀ x ∈ s.turns, keepsFlag s.params.tsW x = true) → cycleTrace n s = some (acts, ms) →
    (∃ pre, acts = pre ++ [.report (.warn .frameTimeout)])
    ∧ ∀ y, .report (.emit y) ∉ acts

/-- O50. Cycles begin only by a call and do not overlap (43_host_cycle.md R181, R182, R194): a call of `RunOnce` starts
a cycle when the host is idle and is nothing during one (log 7), an idle host stays idle in every other step, and with
no turn left nothing happens (log 2). -/
def Obligations.CallsDoNotOverlap : Prop :=
  (∀ (s : State) (rest : List Turn), s.turns = .runOnce :: rest →
    (s.host.phase = .idle → step s = .next { s with turns := rest, host := { s.host with phase := .arm } })
    ∧ (s.host.phase ≠ .idle → step s = .next { s with turns := rest }))
  ∧ (∀ s t : State, s.host.phase = .idle → s.turns.head? ≠ some .runOnce → step s = .next t → t.host.phase = .idle)
  ∧ ∀ s : State, s.turns = [] → step s = .next s

/-- O51. The bounds of a finished cycle (43_host_cycle.md R191, R192, R193): at most `POLL_ITERS + 7` transactions (35 at the
defaults), at most `POLL_ITERS + 1` delays (29), the trigger raised once if automatic and never otherwise, lowered
exactly once after the loop, and exactly one report. -/
def Obligations.FinishedCycleIsBounded : Prop :=
  ∀ (n : Nat) (s : State) (acts : List HostAction) (ms : Nat),
    s.host.phase = .arm → cycleTrace n s = some (acts, ms) →
    (acts.filter isIssue).length ≤ s.hostParams.pollIters + 7
    ∧ acts.count .delayReturns ≤ s.hostParams.pollIters + 1
    ∧ acts.count (.issue (.wrCtrl 2#32)) = (if s.hostParams.autoTrigger then 1 else 0)
    ∧ acts.count (.issue (.wrCtrl 0#32)) = 1
    ∧ ∃ o, acts.getLast? = some (.report o) ∧ ∀ o', .report o' ∈ acts.dropLast → False

/-- O52. The settle delay is honoured (43_host_cycle.md R185; 00_scope.md R12): as long as less time has passed than
the delay asks, the host is still in it, whatever else happens, so it has not polled. -/
def Obligations.SettleDelayIsHonoured : Prop :=
  ∀ (n left : Nat) (s t : State), s.host.phase = .settle left → ticksIn (s.turns.take n) < left →
    runSteps n s = .next t → t.host.phase = .settle (left - ticksIn (s.turns.take n))

/-- O53. The host never writes what the interrupt side owns (40_edge_sampler.md R108): no host transaction writes the
decoder's state, the Measurement or the slot, and none clears `IS_READING`. The model's bookkeeping `arm` of arms is no
state of the block; O56 says its value. -/
def Obligations.HostOwnsOnlyArmAndTrigger : Prop :=
  ∀ (i : Instr) (s : State), agentOf i = some .host →
    ∃ (reading trig arm : Bool) (r : Word),
      exec i s = .next { s with
        rdata := r, armedSinceReset := arm, block := { s.block with isReading := reading, trigOut := trig } }
      ∧ (s.block.isReading = true → reading = true)

/-- O54. The pseudo-transactions (30_encoding.md R87) have the effects their table gives: ARM, ARMTRIG, TRIGHI and
TRIGLO set the flag and drive the trigger as named, `BIT T, b` opens the gate of an armed block with bit `b`, and
`FRAME T0, F` is the 52 bits of `F` from `F[0]` on, one per millisecond from `T0`. (`armedSinceReset` is the model's
bookkeeping, log 14.) -/
def Obligations.PseudoTransactionsDoAsNamed : Prop :=
  (∀ s : State,
    exec pseudoArm s =
      .next { s with armedSinceReset := true, block := { s.block with isReading := true, trigOut := false } }
    ∧ exec pseudoArmTrig s =
      .next { s with armedSinceReset := true, block := { s.block with isReading := true, trigOut := true } }
    ∧ exec pseudoTrigHi s = .next { s with block := { s.block with trigOut := true } }
    ∧ exec pseudoTrigLo s = .next { s with block := { s.block with trigOut := false } })
  ∧ (∀ (p : BlockParams) (T : Nat) (b : Bool), ∃ c d,
      pseudoBit p T b = .edge c d T ∧ dataBit p d = b ∧ ∀ k : Block, gateOpen p c k = k.isReading)
  ∧ ∀ (p : BlockParams) (T0 : Nat) (F : FrameWord),
      (pseudoFrame p T0 F).length = 52
      ∧ (∀ i, i < 52 → (pseudoFrame p T0 F)[i]? = some (pseudoBit p (T0 + i) (F.getLsbD i)))
      ∧ (pseudoFrame p T0 F).map (fun x => Turn.transaction (encode x)) =
          bitTurns p 52 (fun i => (T0 + i, frameBit F i))

/-- O55. The states of a cycle (43_host_cycle.md R181): a step moves the host along Idle, Triggered, Reading and back
to Idle or to TimedOut and back to Idle, and in no other way. That the verdict and the result reads count as Reading
is the model's reading (log 7). -/
def Obligations.CycleStatesMoveAsNamed : Prop :=
  ∀ s t : State, step s = .next t →
    cycleState t.host.phase = cycleState s.host.phase
    ∨ (cycleState s.host.phase, cycleState t.host.phase) ∈
        [(.idle, .triggered), (.triggered, .reading), (.reading, .timedOut), (.reading, .idle), (.timedOut, .idle)]

/-- O56. RESET in a cycle (70_reset_and_hazards.md R230 (c)), where the parameter `resetTimesOut`
takes it as it stands (the model's parameter, not its default, log 14): RESET ends what was armed, a write of CTRL with bit 0 = 1 arms again and
no other write of CTRL changes that, and a cycle past its arming write that was reset and that nobody arms again
reports the frame timeout and emits no value. -/
def Obligations.ResetInACycleTimesOut : Prop :=
  (∀ s : State, ∃ t, exec .reset s = .next t ∧ t.armedSinceReset = false ∧ t.host = s.host)
  ∧ (∀ (v : Word) (s : State), ∃ t, exec (.wrCtrl v) s = .next t
      ∧ t.armedSinceReset = if v.toNat % 2 = 1 then true else s.armedSinceReset)
  ∧ ∀ (n : Nat) (s : State) (acts : List HostAction) (ms : Nat),
    s.hostParams.resetTimesOut = true → s.armedSinceReset = false → awaitsVerdict s.host.phase = true →
    noStepPerforms armsBlock n s → cycleTrace n s = some (acts, ms) →
    (∃ pre, acts = pre ++ [.report (.warn .frameTimeout)]) ∧ ∀ y, .report (.emit y) ∉ acts

/-- O57. The flag and the bookkeeping of arms (10_state.md R34; the bookkeeping is the model's, log 14): at power-on
and after every step, a flag that is set was set by an arm that no RESET has followed. -/
def Obligations.StepKeepsFlagArmed : Prop :=
  (State.reset.block.isReading = true → State.reset.armedSinceReset = true)
  ∧ ∀ s t : State, (s.block.isReading = true → s.armedSinceReset = true) → step s = .next t →
    (t.block.isReading = true → t.armedSinceReset = true)

/-- O58. A timed-out cycle exhausts its budget (43_host_cycle.md R181, R186, R187, R191): with the host's tests of CTRL
bit 0 alone (D25) and nobody else arming, whatever edges, RESETs and other turns arrive, a cycle that reports the frame
timeout has lasted at least `SETTLE_MS + POLL_ITERS * POLL_SLEEP_MS`. That bit 0 alone counts even after a RESET in the
cycle, against 70_reset_and_hazards.md R230 (c), is the model's choice (hypothesis `resetTimesOut = false`, log 14). -/
def Obligations.TimedOutCycleExhaustsItsBudget : Prop :=
  ∀ (n : Nat) (s : State) (acts : List HostAction) (ms : Nat),
    s.hostParams.resetTimesOut = false → s.host.phase = .arm →
    (∀ x ∈ s.turns, leavesArmingToHost s.params.tsW x = true) → cycleTrace n s = some (acts, ms) →
    .report (.warn .frameTimeout) ∈ acts →
    s.hostParams.settleMs + s.hostParams.pollIters * s.hostParams.pollSleepMs ≤ ms

/-- O59. The host's tests of CTRL bit 0 alone (43_host_cycle.md R182, R186, R187; D25): with `resetTimesOut = false` a poll
leaves the loop as soon as the flag is 0, and the verdict is success when the flag is 0 and a timeout when it is 1. That
this is the default, and that it holds whatever RESETs came before, against 70_reset_and_hazards.md R230 (c), is the
model's choice (log 14). -/
def Obligations.BitZeroAloneDecides : Prop :=
  State.reset.hostParams.resetTimesOut = false
  ∧ ∀ (s : State) (rest : List Turn) (more : Nat), s.hostParams.resetTimesOut = false → s.turns = .host :: rest →
    (s.host.phase = .poll more → ∃ t, step s = .next t ∧ t.rdata.getLsbD 0 = s.block.isReading
      ∧ t.host.phase = if s.block.isReading then .pollSleep s.hostParams.pollSleepMs more else .deassert)
    ∧ (s.host.phase = .verdict → ∃ t, step s = .next t ∧ t.rdata.getLsbD 0 = s.block.isReading
      ∧ t.host.phase = if s.block.isReading then .timedOut else .readValue)
end

