-- ==== Sys2Proof/Laws/Nibbles.lean ====
section
/-! SUPPORT. The frame buffer: reading after a write or a clear, and the shift of one bit. -/

namespace Sys2Proof.Machine

/-- Read after write: the written nibble holds the new value and every other nibble its old one. -/
theorem nibAt_nibSet (v : Nibbles) (k j : Nat) (x : Nibble) (h : k < 13) :
    nibAt (nibSet v k x) j = if j = k then x else nibAt v j := by
  unfold nibAt nibSet
  simp only [Vector.getElem?_setIfInBounds]
  by_cases hj : k = j
  · subst hj; simp [h]
  · simp [hj, Ne.symm hj]

@[simp] theorem nibAt_nibClear (j : Nat) : nibAt nibClear j = 0#4 := by
  unfold nibAt nibClear
  by_cases h : j < 13 <;> simp [h]

theorem nibClear_eq : nibClear = Vector.replicate 13 0#4 := rfl

/-- Two buffers that agree on all 13 nibbles are equal. -/
theorem nibbles_ext {v w : Nibbles} (h : ∀ j, j < 13 → nibAt v j = nibAt w j) : v = w := by
  apply Vector.ext
  intro j hj
  simpa [nibAt, hj] using h j hj

/-- The shift of one bit, as numbers (41_frame_decoder.md R123). -/
theorem shiftIn_toNat (b : Bool) (n : Nibble) : (shiftIn b n).toNat = n.toNat / 2 + (if b then 8 else 0) := by
  revert b n; decide

/-- The value is exact in 21 bits: at most `15 * 111111` (10_state.md R25). -/
theorem frameValue_le (v : Nibbles) : frameValue v ≤ 1666665 := by
  unfold frameValue
  have h5 := (nibAt v 5).isLt
  have h6 := (nibAt v 6).isLt
  have h7 := (nibAt v 7).isLt
  have h8 := (nibAt v 8).isLt
  have h9 := (nibAt v 9).isLt
  have h10 := (nibAt v 10).isLt
  omega

/-- The value depends on nibbles 5 to 10 only. -/
theorem frameValue_congr {v w : Nibbles} (h : ∀ j, 5 ≤ j → j ≤ 10 → nibAt v j = nibAt w j) :
    frameValue v = frameValue w := by
  unfold frameValue
  rw [h 5 (by omega) (by omega), h 6 (by omega) (by omega), h 7 (by omega) (by omega), h 8 (by omega) (by omega),
    h 9 (by omega) (by omega), h 10 (by omega) (by omega)]

end Sys2Proof.Machine
end

