-- ==== Sys2Proof/Laws/Decoder.lean ====
section
/-! SUPPORT. What one edge can do to the block, said once: gated off, shifting a bit in, starting a new frame after a
gap, or completing and publishing. -/

namespace Sys2Proof.Machine

variable {p : BlockParams} {c d : Bool} {T : Nat} {k : Block}

theorem gapExceeded_iff : gapExceeded p T k = true ↔ p.maxBitWait < tsDiff p T k.prevTs := by
  simp [gapExceeded]

theorem gapExceeded_false_iff : gapExceeded p T k = false ↔ tsDiff p T k.prevTs ≤ p.maxBitWait := by
  simp [gapExceeded]

/-- The modular difference is the integer remainder of the spec. -/
theorem tsDiff_cast (p : BlockParams) (T prev : Nat) :
    ((tsDiff p T prev : Nat) : Int) = ((T : Int) - (prev : Int)) % ((2 ^ p.tsW : Nat) : Int) := by
  unfold tsDiff
  have h : (0 : Int) < ((2 ^ p.tsW : Nat) : Int) := by exact_mod_cast Nat.two_pow_pos p.tsW
  exact Int.toNat_of_nonneg (Int.emod_nonneg _ (by omega))

/-- Storing a timestamp modulo `2^TS_W` does not change later differences. -/
theorem tsDiff_storedTs (p : BlockParams) (T prev : Nat) : tsDiff p T (storedTs p prev) = tsDiff p T prev := by
  unfold tsDiff storedTs
  congr 1
  push_cast
  exact Int.sub_emod_emod ..

theorem gateOpen_iff : gateOpen p c k = true ↔ k.isReading = true ∧ c = p.clkActiveLevel := by
  simp [gateOpen]

theorem gateOpen_false_iff : gateOpen p c k = false ↔ k.isReading = false ∨ c ≠ p.clkActiveLevel := by
  cases h : k.isReading <;> simp [gateOpen, h]

/-- A gated-off edge. -/
theorem edgeBlock_closed (h : gateOpen p c k = false) : edgeBlock p c d T k = { k with pend := false } := by
  have h' : ¬ gateOpen p c (takeEdge k) = true := by rw [show gateOpen p c (takeEdge k) = gateOpen p c k from rfl, h]; decide
  rw [edgeBlock, serviceEdge, if_neg h']
  rfl

/-- An edge with its gate open is a decoder call on the block with the edge pending. -/
theorem edgeBlock_open (h : gateOpen p c k = true) :
    edgeBlock p c d T k = acknowledge (decodeAndPublish p T (dataBit p d) (takeEdge k)) := by
  have h' : gateOpen p c (takeEdge k) = true := h
  rw [edgeBlock, serviceEdge, if_pos h']

/-- Without a gap the decoder takes its bit on top of what the buffer holds. -/
theorem takeBit_noGap (b : Bool) (hg : gapExceeded p T k = false) (hb : k.bc.toNat ≤ 51) :
    takeBit p T b k =
      { k with
        bc := k.bc + 1#6
        nib := nibSet k.nib (k.bc.toNat / 4) (shiftIn b (nibAt k.nib (k.bc.toNat / 4)))
        prevTs := storedTs p T } := by
  have hlt : (updateTs p T k).bc.toNat < Config.frameLen := by
    simp only [updateTs, Config.frameLen]; omega
  rw [takeBit, gapReset, if_neg (by rw [hg]; decide), accumulate, if_pos hlt]
  rfl

/-- After a gap the decoder takes its bit into an empty buffer. -/
theorem takeBit_gap (b : Bool) (hg : gapExceeded p T k = true) :
    takeBit p T b k =
      { k with bc := 1#6, nib := nibSet nibClear 0 (shiftIn b 0#4), prevTs := storedTs p T } := by
  rw [takeBit, gapReset, if_pos hg, accumulate, if_pos (by simp [updateTs, Config.frameLen])]
  simp [updateTs]

/-- A call that does not complete. -/
theorem decodeAndPublish_notDone (b : Bool) (h : frameComplete (takeBit p T b k) = false) :
    decodeAndPublish p T b k = takeBit p T b k := by
  simp [decodeAndPublish, decodeBit, h]

/-- A call that completes is published in the same step. -/
theorem decodeAndPublish_done (b : Bool) (h : frameComplete (takeBit p T b k) = true) :
    decodeAndPublish p T b k = publish p (completeFrame (takeBit p T b k)) := by
  simp [decodeAndPublish, decodeBit, h]

/-- A bit within the window, before the last of its frame. -/
theorem edgeBlock_shift (h : gateOpen p c k = true) (hg : gapExceeded p T k = false) (hb : k.bc.toNat ≤ 50) :
    edgeBlock p c d T k =
      { k with
        bc := k.bc + 1#6
        nib := nibSet k.nib (k.bc.toNat / 4) (shiftIn (dataBit p d) (nibAt k.nib (k.bc.toNat / 4)))
        prevTs := storedTs p T
        pend := false } := by
  have ht := takeBit_noGap (k := takeEdge k) (dataBit p d) hg (show k.bc.toNat ≤ 51 by omega)
  have hc : frameComplete (takeBit p T (dataBit p d) (takeEdge k)) = false := by
    have : (k.bc + 1#6).toNat ≠ 52 := by rw [BitVec.toNat_add]; simp; omega
    rw [ht]; simpa [frameComplete, Config.frameLen, takeEdge] using this
  rw [edgeBlock_open h, decodeAndPublish_notDone _ hc, ht]
  rfl

/-- The first bit after a gap. -/
theorem edgeBlock_gap (h : gateOpen p c k = true) (hg : gapExceeded p T k = true) :
    edgeBlock p c d T k =
      { k with
        bc := 1#6
        nib := nibSet nibClear 0 (shiftIn (dataBit p d) 0#4)
        prevTs := storedTs p T
        pend := false } := by
  have ht := takeBit_gap (k := takeEdge k) (dataBit p d) hg
  have hc : frameComplete (takeBit p T (dataBit p d) (takeEdge k)) = false := by
    rw [ht]; rfl
  rw [edgeBlock_open h, decodeAndPublish_notDone _ hc, ht]
  rfl

/-- The 52nd bit of a frame. It goes into nibble 12, which no field uses. -/
theorem edgeBlock_complete (h : gateOpen p c k = true) (hg : gapExceeded p T k = false) (hb : k.bc.toNat = 51) :
    edgeBlock p c d T k =
      { k with
        bc := 0#6
        nib := nibClear
        prevTs := storedTs p T
        mValue := BitVec.ofNat 21 (frameValue k.nib)
        mDp := nibAt k.nib 11
        mPos := signIsPositive (nibAt k.nib 4)
        slotValue := BitVec.ofNat 32 (frameValue k.nib % 2 ^ p.slotValueW)
        slotDp := nibAt k.nib 11
        slotPos := signIsPositive (nibAt k.nib 4)
        isReading := false
        pend := false } := by
  have ht := takeBit_noGap (k := takeEdge k) (dataBit p d) hg (show k.bc.toNat ≤ 51 by omega)
  have hc : frameComplete (takeBit p T (dataBit p d) (takeEdge k)) = true := by
    have : (k.bc + 1#6).toNat = 52 := by rw [BitVec.toNat_add, hb]; rfl
    rw [ht]; simpa [frameComplete, Config.frameLen, takeEdge] using this
  have hn : ∀ x j, j ≠ 12 → nibAt (nibSet k.nib (k.bc.toNat / 4) x) j = nibAt k.nib j := by
    intro x j hj
    rw [nibAt_nibSet _ _ _ _ (by omega), if_neg (by omega)]
  have hv : ∀ x, frameValue (nibSet k.nib (k.bc.toNat / 4) x) = frameValue k.nib :=
    fun x => frameValue_congr fun j _ _ => hn x j (by omega)
  have hm : (BitVec.ofNat 21 (frameValue k.nib)).toNat = frameValue k.nib := by
    have := frameValue_le k.nib
    rw [BitVec.toNat_ofNat]; omega
  have hk : (takeEdge k).nib = k.nib := rfl
  have hbc : (takeEdge k).bc = k.bc := rfl
  rw [edgeBlock_open h, decodeAndPublish_done _ hc, ht, completeFrame, publish]
  dsimp only
  rw [hk, hbc, hv, hm, hn _ 11 (by omega), hn _ 4 (by omega)]
  rfl

/-- What one edge can do, in a state that a run can reach. -/
theorem edgeBlock_cases (p : BlockParams) (c d : Bool) (T : Nat) (k : Block) (hb : k.bc.toNat ≤ 51) :
    (gateOpen p c k = false ∧ edgeBlock p c d T k = { k with pend := false })
    ∨ (gateOpen p c k = true ∧ gapExceeded p T k = true ∧
        edgeBlock p c d T k =
          { k with
            bc := 1#6, nib := nibSet nibClear 0 (shiftIn (dataBit p d) 0#4), prevTs := storedTs p T,
            pend := false })
    ∨ (gateOpen p c k = true ∧ gapExceeded p T k = false ∧ k.bc.toNat ≤ 50 ∧
        edgeBlock p c d T k =
          { k with
            bc := k.bc + 1#6
            nib := nibSet k.nib (k.bc.toNat / 4) (shiftIn (dataBit p d) (nibAt k.nib (k.bc.toNat / 4)))
            prevTs := storedTs p T, pend := false })
    ∨ (gateOpen p c k = true ∧ gapExceeded p T k = false ∧ k.bc.toNat = 51 ∧
        edgeBlock p c d T k =
          { k with
            bc := 0#6, nib := nibClear, prevTs := storedTs p T
            mValue := BitVec.ofNat 21 (frameValue k.nib), mDp := nibAt k.nib 11
            mPos := signIsPositive (nibAt k.nib 4)
            slotValue := BitVec.ofNat 32 (frameValue k.nib % 2 ^ p.slotValueW), slotDp := nibAt k.nib 11
            slotPos := signIsPositive (nibAt k.nib 4), isReading := false, pend := false }) := by
  cases h : gateOpen p c k
  · exact .inl ⟨rfl, edgeBlock_closed h⟩
  · cases hg : gapExceeded p T k
    · rcases Nat.lt_or_ge k.bc.toNat 51 with h50 | h51
      · exact .inr (.inr (.inl ⟨rfl, rfl, by omega, edgeBlock_shift h hg (by omega)⟩))
      · exact .inr (.inr (.inr ⟨rfl, rfl, by omega, edgeBlock_complete h hg (by omega)⟩))
    · exact .inr (.inl ⟨rfl, rfl, edgeBlock_gap h hg⟩)

/-- No edge, in whatever state, moves the trigger or arms the block. -/
theorem edgeBlock_trigOut (p : BlockParams) (c d : Bool) (T : Nat) (k : Block) :
    (edgeBlock p c d T k).trigOut = k.trigOut := by
  unfold edgeBlock serviceEdge decodeAndPublish decodeBit takeBit accumulate updateTs gapReset completeFrame publish
    acknowledge takeEdge
  dsimp only
  repeat' split
  all_goals rfl

end Sys2Proof.Machine
end

