-- ==== Sys2Proof/Laws/Encoding.lean ====
section
/-! SUPPORT. The decoder on the words of each row, and the indices of the registers. -/

namespace Sys2Proof

@[simp] theorem regOfIndex_indexOfReg (r : Reg) : regOfIndex (indexOfReg r) = r := by cases r <;> rfl

/-- The decoder on one word of format B with its four zero bits: the operand becomes WDATA. -/
theorem decode_busWord (tsW n : Nat) (wr : Bool) (r : Reg) :
    decode tsW ⟨busWord wr r, n⟩ =
      .instr (if wr then writeOf (BitVec.ofNat 32 n) r else readOf r) := by
  cases wr <;> cases r <;> simp [decode, busWord, indexOfReg, regOfIndex]

/-- The decoder on an EDGE word: the operand's low `TS_W` bits become the timestamp. -/
theorem decode_edgeWord (tsW n : Nat) (c d : Bool) :
    decode tsW ⟨eventWord 0b001#3 (0b00#2 ++ BitVec.ofBool c ++ BitVec.ofBool d), n⟩ =
      .instr (.edge c d (n % 2 ^ tsW)) := by
  cases c <;> cases d <;> simp [decode, eventWord]

/-- An encoded EDGE decodes to itself with the timestamp cut to `TS_W` bits. -/
theorem decode_encode_edge (tsW T : Nat) (c d : Bool) :
    decode tsW (encode (.edge c d T)) = .instr (.edge c d (T % 2 ^ tsW)) := decode_edgeWord tsW T c d

/-- A decoded EDGE has a timestamp below `2^TS_W`. -/
theorem edge_of_decode_lt {tsW : Nat} {x : Transaction} {c d : Bool} {T : Nat}
    (h : decode tsW x = .instr (.edge c d T)) : T < 2 ^ tsW := by
  have hw : ∀ v r, writeOf v r ≠ Instr.edge c d T := by intro v r; cases r <;> simp [writeOf]
  have hr : ∀ r, readOf r ≠ Instr.edge c d T := by intro r; cases r <;> simp [readOf]
  unfold decode at h
  dsimp only at h
  repeat' split at h
  all_goals first
    | exact absurd (Decoded.instr.inj h) (hw _ _)
    | exact absurd (Decoded.instr.inj h) (hr _)
    | (injection h with h; injection h with _ _ h; rw [← h]; exact Nat.mod_lt _ (Nat.two_pow_pos _))
    | (injection h with h; injection h)
    | cases h

end Sys2Proof
end

