-- ==== Sys2Proof/Laws/State.lean ====
section
/-! SUPPORT. One lemma per field per named update of the state, and of the block's interrupt entry and return. -/

namespace Sys2Proof.Machine

variable (s : State) (k : Block)

@[simp] theorem State.setBlock_params : (s.setBlock k).params = s.params := rfl
@[simp] theorem State.setBlock_hostParams : (s.setBlock k).hostParams = s.hostParams := rfl
@[simp] theorem State.setBlock_block : (s.setBlock k).block = k := rfl
@[simp] theorem State.setBlock_refused : (s.setBlock k).refused = s.refused := rfl
@[simp] theorem State.setBlock_armedSinceReset : (s.setBlock k).armedSinceReset = s.armedSinceReset := rfl
@[simp] theorem State.setBlock_rdata : (s.setBlock k).rdata = s.rdata := rfl
@[simp] theorem State.setBlock_host : (s.setBlock k).host = s.host := rfl
@[simp] theorem State.setBlock_turns : (s.setBlock k).turns = s.turns := rfl
@[simp] theorem State.setBlock_same : s.setBlock s.block = s := rfl
@[simp] theorem State.setBlock_setBlock (k' : Block) : (s.setBlock k').setBlock k = s.setBlock k := rfl

@[simp] theorem State.setArmed_params (b) : (s.setArmed b).params = s.params := rfl
@[simp] theorem State.setArmed_hostParams (b) : (s.setArmed b).hostParams = s.hostParams := rfl
@[simp] theorem State.setArmed_block (b) : (s.setArmed b).block = s.block := rfl
@[simp] theorem State.setArmed_refused (b) : (s.setArmed b).refused = s.refused := rfl
@[simp] theorem State.setArmed_armedSinceReset (b) : (s.setArmed b).armedSinceReset = b := rfl
@[simp] theorem State.setArmed_rdata (b) : (s.setArmed b).rdata = s.rdata := rfl
@[simp] theorem State.setArmed_host (b) : (s.setArmed b).host = s.host := rfl
@[simp] theorem State.setArmed_turns (b) : (s.setArmed b).turns = s.turns := rfl
@[simp] theorem State.setBlock_setArmed_same :
    (s.setBlock k).setArmed s.armedSinceReset = s.setBlock k := rfl
@[simp] theorem State.setArmed_same : s.setArmed s.armedSinceReset = s := rfl

@[simp] theorem State.setRdata_params (v) : (s.setRdata v).params = s.params := rfl
@[simp] theorem State.setRdata_hostParams (v) : (s.setRdata v).hostParams = s.hostParams := rfl
@[simp] theorem State.setRdata_block (v) : (s.setRdata v).block = s.block := rfl
@[simp] theorem State.setRdata_refused (v) : (s.setRdata v).refused = s.refused := rfl
@[simp] theorem State.setRdata_armedSinceReset (v) : (s.setRdata v).armedSinceReset = s.armedSinceReset := rfl
@[simp] theorem State.setRdata_rdata (v) : (s.setRdata v).rdata = v := rfl
@[simp] theorem State.setRdata_host (v) : (s.setRdata v).host = s.host := rfl
@[simp] theorem State.setRdata_turns (v) : (s.setRdata v).turns = s.turns := rfl

@[simp] theorem State.setPhase_params (q) : (s.setPhase q).params = s.params := rfl
@[simp] theorem State.setPhase_hostParams (q) : (s.setPhase q).hostParams = s.hostParams := rfl
@[simp] theorem State.setPhase_block (q) : (s.setPhase q).block = s.block := rfl
@[simp] theorem State.setPhase_refused (q) : (s.setPhase q).refused = s.refused := rfl
@[simp] theorem State.setPhase_armedSinceReset (q) : (s.setPhase q).armedSinceReset = s.armedSinceReset := rfl
@[simp] theorem State.setPhase_rdata (q) : (s.setPhase q).rdata = s.rdata := rfl
@[simp] theorem State.setPhase_phase (q) : (s.setPhase q).host.phase = q := rfl
@[simp] theorem State.setPhase_outputs (q) : (s.setPhase q).host.outputs = s.host.outputs := rfl
@[simp] theorem State.setPhase_turns (q) : (s.setPhase q).turns = s.turns := rfl

@[simp] theorem State.addOutput_params (o) : (s.addOutput o).params = s.params := rfl
@[simp] theorem State.addOutput_hostParams (o) : (s.addOutput o).hostParams = s.hostParams := rfl
@[simp] theorem State.addOutput_block (o) : (s.addOutput o).block = s.block := rfl
@[simp] theorem State.addOutput_refused (o) : (s.addOutput o).refused = s.refused := rfl
@[simp] theorem State.addOutput_armedSinceReset (o) : (s.addOutput o).armedSinceReset = s.armedSinceReset := rfl
@[simp] theorem State.addOutput_rdata (o) : (s.addOutput o).rdata = s.rdata := rfl
@[simp] theorem State.addOutput_phase (o) : (s.addOutput o).host.phase = s.host.phase := rfl
@[simp] theorem State.addOutput_outputs (o) : (s.addOutput o).host.outputs = o :: s.host.outputs := rfl
@[simp] theorem State.addOutput_turns (o) : (s.addOutput o).turns = s.turns := rfl

@[simp] theorem State.setTurns_params (ts) : (s.setTurns ts).params = s.params := rfl
@[simp] theorem State.setTurns_hostParams (ts) : (s.setTurns ts).hostParams = s.hostParams := rfl
@[simp] theorem State.setTurns_block (ts) : (s.setTurns ts).block = s.block := rfl
@[simp] theorem State.setTurns_refused (ts) : (s.setTurns ts).refused = s.refused := rfl
@[simp] theorem State.setTurns_armedSinceReset (ts) : (s.setTurns ts).armedSinceReset = s.armedSinceReset := rfl
@[simp] theorem State.setTurns_rdata (ts) : (s.setTurns ts).rdata = s.rdata := rfl
@[simp] theorem State.setTurns_host (ts) : (s.setTurns ts).host = s.host := rfl
@[simp] theorem State.setTurns_turns (ts) : (s.setTurns ts).turns = ts := rfl
@[simp] theorem State.setTurns_setTurns (ts us) : (s.setTurns us).setTurns ts = s.setTurns ts := rfl

@[simp] theorem raiseRefuse_params (r) : (raiseRefuse r s).params = s.params := rfl
@[simp] theorem raiseRefuse_hostParams (r) : (raiseRefuse r s).hostParams = s.hostParams := rfl
@[simp] theorem raiseRefuse_block (r) : (raiseRefuse r s).block = s.block := rfl
@[simp] theorem raiseRefuse_refused (r) : (raiseRefuse r s).refused = true := rfl
@[simp] theorem raiseRefuse_armedSinceReset (r) : (raiseRefuse r s).armedSinceReset = s.armedSinceReset := rfl
@[simp] theorem raiseRefuse_rdata (r) : (raiseRefuse r s).rdata = s.rdata := rfl
@[simp] theorem raiseRefuse_host (r) : (raiseRefuse r s).host = s.host := rfl
@[simp] theorem raiseRefuse_turns (r) : (raiseRefuse r s).turns = s.turns := rfl

@[simp] theorem advancePhase_params : (advancePhase s).params = s.params := rfl
@[simp] theorem advancePhase_hostParams : (advancePhase s).hostParams = s.hostParams := rfl
@[simp] theorem advancePhase_block : (advancePhase s).block = s.block := rfl
@[simp] theorem advancePhase_refused : (advancePhase s).refused = s.refused := rfl
@[simp] theorem advancePhase_armedSinceReset : (advancePhase s).armedSinceReset = s.armedSinceReset := rfl
@[simp] theorem advancePhase_rdata : (advancePhase s).rdata = s.rdata := rfl
@[simp] theorem advancePhase_phase :
    (advancePhase s).host.phase = phaseAfter s.hostParams s.armedSinceReset s.rdata s.host.phase := rfl
@[simp] theorem advancePhase_outputs : (advancePhase s).host.outputs = s.host.outputs := rfl
@[simp] theorem advancePhase_turns : (advancePhase s).turns = s.turns := rfl

@[simp] theorem andThen_next (f) : andThen (.next s) f = .next (f s) := rfl

end Sys2Proof.Machine
end

