-- ==== Sys2Proof/Laws/Exec.lean ====
section
/-! SUPPORT. What each transaction's meaning does, one lemma each, and the whole of what `exec` can do. -/

namespace Sys2Proof.Machine

variable (s : State)

@[simp] theorem exec_nop : exec .nop s = .next s := rfl

@[simp] theorem exec_reset : exec .reset s = .next ((s.setBlock resetBlock).setArmed false) := rfl

/-- RESET gives the power-on block (70_reset_and_hazards.md R231). -/
@[simp] theorem resetBlock_eq : resetBlock = Block.reset := rfl

@[simp] theorem exec_rdCtrl : exec .rdCtrl s = .next (s.setRdata (readReg .ctrl s.block)) := rfl

@[simp] theorem exec_rdValue : exec .rdValue s = .next (s.setRdata (readReg .resultValue s.block)) := rfl

@[simp] theorem exec_rdDp : exec .rdDp s = .next (s.setRdata (readReg .resultDp s.block)) := rfl

@[simp] theorem exec_rdSign : exec .rdSign s = .next (s.setRdata (readReg .resultSign s.block)) := rfl

@[simp] theorem exec_wrCtrl (v : Word) : exec (.wrCtrl v) s =
    .next ((s.setBlock (writeReg .ctrl v s.block)).setArmed (armedAfter v s.armedSinceReset)) := rfl

@[simp] theorem exec_wrValue (v : Word) : exec (.wrValue v) s = .next s := rfl

@[simp] theorem exec_wrDp (v : Word) : exec (.wrDp v) s = .next s := rfl

@[simp] theorem exec_wrSign (v : Word) : exec (.wrSign v) s = .next s := rfl

/-- An edge in a state that a run can reach. -/
theorem exec_edge (c d : Bool) (T : Nat) {s : State} (h : s.block.bc.toNat ≤ 51) :
    exec (.edge c d T) s = .next (s.setBlock (edgeBlock s.params c d T s.block)) := by
  have hb : bcOutOfRange s.block = false := by simp [bcOutOfRange]; omega
  simp [exec, execEdge, hb]

/-- A gated-off edge, in any state. -/
theorem exec_edge_closed (c d : Bool) (T : Nat) {s : State} (h : gateOpen s.params c s.block = false) :
    exec (.edge c d T) s = .next (s.setBlock { s.block with pend := false }) := by
  simp [exec, execEdge, h, edgeBlock_closed h]

/-- Where the decoder would be called beyond the bit count's range, the mark is raised. -/
theorem exec_edge_refused (c d : Bool) (T : Nat) {s : State} (hg : gateOpen s.params c s.block = true)
    (h : 51 < s.block.bc.toNat) :
    exec (.edge c d T) s = .next (raiseRefuse .bitCountOutOfRange s) := by
  have hb : bcOutOfRange s.block = true := by simp [bcOutOfRange]; omega
  simp [exec, execEdge, hb, hg]

/-- All that an edge can do. -/
theorem exec_edge_cases (c d : Bool) (T : Nat) (s : State) :
    (gateOpen s.params c s.block = true ∧ 51 < s.block.bc.toNat ∧
      exec (.edge c d T) s = .next (raiseRefuse .bitCountOutOfRange s))
    ∨ ((gateOpen s.params c s.block = false ∨ s.block.bc.toNat ≤ 51) ∧
      exec (.edge c d T) s = .next (s.setBlock (edgeBlock s.params c d T s.block))) := by
  cases hg : gateOpen s.params c s.block
  · exact .inr ⟨.inl rfl, by rw [exec_edge_closed c d T hg, edgeBlock_closed hg]⟩
  · rcases Nat.lt_or_ge 51 s.block.bc.toNat with h | h
    · exact .inl ⟨rfl, h, exec_edge_refused c d T hg h⟩
    · exact .inr ⟨.inr h, exec_edge c d T h⟩

/-- All that a transaction can do: nothing, reset the block, serve an edge, raise the mark, answer a read, or write
CTRL. -/
theorem exec_cases (i : Instr) (s : State) :
    exec i s = .next s
    ∨ (i = .reset ∧ exec i s = .next ((s.setBlock Block.reset).setArmed false))
    ∨ (∃ c d T, i = .edge c d T ∧ (gateOpen s.params c s.block = false ∨ s.block.bc.toNat ≤ 51) ∧
        exec i s = .next (s.setBlock (edgeBlock s.params c d T s.block)))
    ∨ (∃ c d T, i = .edge c d T ∧ gateOpen s.params c s.block = true ∧ 51 < s.block.bc.toNat ∧
        exec i s = .next (raiseRefuse .bitCountOutOfRange s))
    ∨ ((i = .rdCtrl ∨ i = .rdValue ∨ i = .rdDp ∨ i = .rdSign) ∧ ∃ v, exec i s = .next (s.setRdata v))
    ∨ (∃ v, i = .wrCtrl v ∧ exec i s =
        .next ((s.setBlock (writeReg .ctrl v s.block)).setArmed (armedAfter v s.armedSinceReset))) := by
  cases i with
  | nop => exact .inl rfl
  | reset => exact .inr (.inl ⟨rfl, rfl⟩)
  | edge c d T =>
    rcases exec_edge_cases c d T s with ⟨hg, hb, h⟩ | ⟨hb, h⟩
    · exact .inr (.inr (.inr (.inl ⟨c, d, T, rfl, hg, hb, h⟩)))
    · exact .inr (.inr (.inl ⟨c, d, T, rfl, hb, h⟩))
  | rdCtrl => exact .inr (.inr (.inr (.inr (.inl ⟨by simp, _, rfl⟩))))
  | rdValue => exact .inr (.inr (.inr (.inr (.inl ⟨by simp, _, rfl⟩))))
  | rdDp => exact .inr (.inr (.inr (.inr (.inl ⟨by simp, _, rfl⟩))))
  | rdSign => exact .inr (.inr (.inr (.inr (.inl ⟨by simp, _, rfl⟩))))
  | wrCtrl v => exact .inr (.inr (.inr (.inr (.inr ⟨v, rfl, rfl⟩))))
  | wrValue v => exact .inl rfl
  | wrDp v => exact .inl rfl
  | wrSign v => exact .inl rfl

/-- What no transaction touches. -/
theorem exec_keeps {i : Instr} {s t : State} (h : exec i s = .next t) :
    t.params = s.params ∧ t.hostParams = s.hostParams ∧ t.host = s.host ∧ t.turns = s.turns := by
  rcases exec_cases i s with h' | ⟨-, h'⟩ | ⟨_, _, _, -, -, h'⟩ | ⟨_, _, _, -, -, -, h'⟩ | ⟨-, _, h'⟩ | ⟨_, -, h'⟩ <;>
    (rw [h'] at h; injection h with h; subst h; simp)

end Sys2Proof.Machine
end

