-- ==== Sys2Proof/Laws/Step.lean ====
section
/-! SUPPORT. What one step can do: the step on each kind of turn, the host's turn action by action, and runs. -/

namespace Sys2Proof.Machine

variable {s t : State} {rest : List Turn}

theorem step_idle (h : s.turns = []) : step s = .next s := by simp [step, takeTurn, h]

theorem step_cons {x : Turn} (h : s.turns = x :: rest) : step s = runTurn x (s.setTurns rest) := by
  simp [step, takeTurn, h]

theorem runTransaction_instr {x : Transaction} {i : Instr} (h : decode s.params.tsW x = .instr i) :
    runTransaction x s = exec i s := by simp [runTransaction, h]

theorem runTransaction_reserved {x : Transaction} {w : Code} (h : decode s.params.tsW x = .reserved w) :
    runTransaction x s = .next (raiseRefuse (.reservedWord w) s) := by simp [runTransaction, h]

/-- The host's turn, by what its next action is. -/
theorem hostTurn_cases (s : State) :
    (nextAction s.hostParams s.host.phase = none ∧ hostTurn s = .next s)
    ∨ (∃ i u, nextAction s.hostParams s.host.phase = some (.issue i) ∧ exec i s = .next u ∧
        hostTurn s = .next (advancePhase u))
    ∨ (nextAction s.hostParams s.host.phase = some .delayReturns ∧ hostTurn s = .next (advancePhase s))
    ∨ (∃ o, nextAction s.hostParams s.host.phase = some (.report o) ∧
        hostTurn s = .next ((advancePhase s).addOutput o)) := by
  unfold hostTurn
  cases h : nextAction s.hostParams s.host.phase with
  | none => exact .inl ⟨rfl, rfl⟩
  | some a =>
    cases a with
    | issue i =>
      have hx : ∃ u, exec i s = .next u := by
        rcases exec_cases i s with h' | ⟨-, h'⟩ | ⟨_, _, _, -, -, h'⟩ | ⟨_, _, _, -, -, -, h'⟩ | ⟨-, _, h'⟩ | ⟨_, -, h'⟩ <;>
          exact ⟨_, h'⟩
      obtain ⟨u, hu⟩ := hx
      exact .inr (.inl ⟨i, u, rfl, hu, by simp [hu]⟩)
    | delayReturns => exact .inr (.inr (.inl ⟨rfl, rfl⟩))
    | report o => exact .inr (.inr (.inr ⟨o, rfl, rfl⟩))

/-- The host issues only reads and writes of CTRL: never an edge, never a RESET. -/
theorem nextAction_issue {hp : HostParams} {q : HostPhase} {i : Instr} (h : nextAction hp q = some (.issue i)) :
    i = .rdCtrl ∨ i = .rdValue ∨ i = .rdDp ∨ i = .rdSign ∨ ∃ v, i = .wrCtrl v := by
  cases q <;> simp [nextAction] at h <;> subst h <;> simp

/-- All that a step can do, by the turn it takes. -/
theorem step_cases (s : State) :
    (s.turns = [] ∧ step s = .next s)
    ∨ (∃ x rest i, s.turns = .transaction x :: rest ∧ decode s.params.tsW x = .instr i ∧
        step s = exec i (s.setTurns rest))
    ∨ (∃ x rest w, s.turns = .transaction x :: rest ∧ decode s.params.tsW x = .reserved w ∧
        step s = .next (raiseRefuse (.reservedWord w) (s.setTurns rest)))
    ∨ (∃ rest, s.turns = .host :: rest ∧ step s = hostTurn (s.setTurns rest))
    ∨ (∃ rest, s.turns = .runOnce :: rest ∧ step s = .next (callRunOnce (s.setTurns rest)))
    ∨ (∃ ms rest, s.turns = .tick ms :: rest ∧ step s = .next (passTime ms (s.setTurns rest))) := by
  cases h : s.turns with
  | nil => exact .inl ⟨rfl, step_idle h⟩
  | cons x rest =>
    have hs := step_cons h
    cases x with
    | transaction x =>
      cases hd : decode s.params.tsW x with
      | instr i => exact .inr (.inl ⟨x, rest, i, rfl, hd, hs.trans (runTransaction_instr hd)⟩)
      | reserved w => exact .inr (.inr (.inl ⟨x, rest, w, rfl, hd, hs.trans (runTransaction_reserved hd)⟩))
    | host => exact .inr (.inr (.inr (.inl ⟨rest, rfl, hs⟩)))
    | runOnce => exact .inr (.inr (.inr (.inr (.inl ⟨rest, rfl, hs⟩))))
    | tick ms => exact .inr (.inr (.inr (.inr (.inr ⟨ms, rest, rfl, hs⟩))))

@[simp] theorem callRunOnce_params : (callRunOnce s).params = s.params := by unfold callRunOnce; split <;> rfl
@[simp] theorem callRunOnce_hostParams : (callRunOnce s).hostParams = s.hostParams := by
  unfold callRunOnce; split <;> rfl
@[simp] theorem callRunOnce_block : (callRunOnce s).block = s.block := by unfold callRunOnce; split <;> rfl
@[simp] theorem callRunOnce_refused : (callRunOnce s).refused = s.refused := by unfold callRunOnce; split <;> rfl
@[simp] theorem callRunOnce_armedSinceReset : (callRunOnce s).armedSinceReset = s.armedSinceReset := by
  unfold callRunOnce; split <;> rfl
@[simp] theorem callRunOnce_rdata : (callRunOnce s).rdata = s.rdata := by unfold callRunOnce; split <;> rfl
@[simp] theorem callRunOnce_outputs : (callRunOnce s).host.outputs = s.host.outputs := by
  unfold callRunOnce; split <;> rfl
@[simp] theorem callRunOnce_turns : (callRunOnce s).turns = s.turns := by unfold callRunOnce; split <;> rfl

@[simp] theorem passTime_params (ms) : (passTime ms s).params = s.params := rfl
@[simp] theorem passTime_hostParams (ms) : (passTime ms s).hostParams = s.hostParams := rfl
@[simp] theorem passTime_block (ms) : (passTime ms s).block = s.block := rfl
@[simp] theorem passTime_refused (ms) : (passTime ms s).refused = s.refused := rfl
@[simp] theorem passTime_armedSinceReset (ms) : (passTime ms s).armedSinceReset = s.armedSinceReset := rfl
@[simp] theorem passTime_rdata (ms) : (passTime ms s).rdata = s.rdata := rfl
@[simp] theorem passTime_phase (ms) : (passTime ms s).host.phase = phaseAfterTick ms s.host.phase := rfl
@[simp] theorem passTime_outputs (ms) : (passTime ms s).host.outputs = s.host.outputs := rfl
@[simp] theorem passTime_turns (ms) : (passTime ms s).turns = s.turns := rfl

/-- The block after a step, by the transaction the step performs: nothing but that transaction touches it. -/
theorem step_block (h : step s = .next t) :
    (stepInstr s = none ∧ t.block = s.block ∧ t.rdata = s.rdata ∧ t.armedSinceReset = s.armedSinceReset)
    ∨ ∃ (i : Instr) (s' u : State), stepInstr s = some i ∧ s'.block = s.block ∧ s'.params = s.params
        ∧ s'.rdata = s.rdata ∧ s'.refused = s.refused ∧ exec i s' = .next u ∧ t.block = u.block ∧ t.rdata = u.rdata
        ∧ t.refused = u.refused ∧ s'.armedSinceReset = s.armedSinceReset ∧ t.armedSinceReset = u.armedSinceReset := by
  rcases step_cases s with ⟨hn, hs⟩ | ⟨x, rest, i, hn, hd, hs⟩ | ⟨x, rest, w, hn, hd, hs⟩ | ⟨rest, hn, hs⟩ |
    ⟨rest, hn, hs⟩ | ⟨ms, rest, hn, hs⟩ <;> rw [hs] at h
  · injection h with h; subst h; exact .inl ⟨by simp [stepInstr, hn], rfl, rfl, rfl⟩
  · exact .inr ⟨i, s.setTurns rest, t, by simp [stepInstr, hn, turnInstr, hd], rfl, rfl, rfl, rfl, h, rfl, rfl, rfl,
      rfl, rfl⟩
  · injection h with h; subst h; exact .inl ⟨by simp [stepInstr, hn, turnInstr, hd], rfl, rfl, rfl⟩
  · rcases hostTurn_cases (s.setTurns rest) with ⟨hn', hs'⟩ | ⟨i, u, hn', hx, hs'⟩ | ⟨hn', hs'⟩ | ⟨o, hn', hs'⟩ <;>
      rw [hs'] at h <;> injection h with h <;> subst h <;>
      simp only [State.setTurns_hostParams, State.setTurns_host] at hn'
    · exact .inl ⟨by simp [stepInstr, hn, turnInstr, hn'], rfl, rfl, rfl⟩
    · exact .inr ⟨i, s.setTurns rest, u, by simp [stepInstr, hn, turnInstr, hn'], rfl, rfl, rfl, rfl, hx, rfl, rfl,
        rfl, rfl, rfl⟩
    · exact .inl ⟨by simp [stepInstr, hn, turnInstr, hn'], rfl, rfl, rfl⟩
    · exact .inl ⟨by simp [stepInstr, hn, turnInstr, hn'], rfl, rfl, rfl⟩
  · injection h with h; subst h; exact .inl ⟨by simp [stepInstr, hn, turnInstr], by simp, by simp, by simp⟩
  · injection h with h; subst h; exact .inl ⟨by simp [stepInstr, hn, turnInstr], rfl, rfl, rfl⟩

/-- No step changes the host's parameters. -/
theorem step_hostParams (e : step s = .next t) : t.hostParams = s.hostParams := by
  rcases step_cases s with ⟨hn, hs⟩ | ⟨x, rest, i, hn, hd, hs⟩ | ⟨x, rest, w, hn, hd, hs⟩ | ⟨rest, hn, hs⟩ |
    ⟨rest, hn, hs⟩ | ⟨ms, rest, hn, hs⟩ <;> rw [hs] at e
  · injection e with e; subst e; simp
  · have := exec_keeps e; simp [this]
  · injection e with e; subst e; simp
  · rcases hostTurn_cases (s.setTurns rest) with ⟨hn', hs'⟩ | ⟨i, u, hn', hx, hs'⟩ | ⟨hn', hs'⟩ | ⟨o, hn', hs'⟩ <;>
      rw [hs'] at e <;> injection e with e <;> subst e <;> try (simp; done)
    have := exec_keeps hx; simp [this]
  · injection e with e; subst e; simp
  · injection e with e; subst e; simp

/-- A step takes one turn off the list. -/
theorem step_turns (e : step s = .next t) : t.turns = s.turns.tail := by
  rcases step_cases s with ⟨hn, hs⟩ | ⟨x, rest, i, hn, hd, hs⟩ | ⟨x, rest, w, hn, hd, hs⟩ | ⟨rest, hn, hs⟩ |
    ⟨rest, hn, hs⟩ | ⟨ms, rest, hn, hs⟩ <;> rw [hs] at e <;> rw [hn]
  · injection e with e; subst e; simp [hn]
  · have := exec_keeps e; simp [this]
  · injection e with e; subst e; simp
  · rcases hostTurn_cases (s.setTurns rest) with ⟨hn', hs'⟩ | ⟨i, u, hn', hx, hs'⟩ | ⟨hn', hs'⟩ | ⟨o, hn', hs'⟩ <;>
      rw [hs'] at e <;> injection e with e <;> subst e <;> try (simp; done)
    have := exec_keeps hx; simp [this]
  · injection e with e; subst e; simp
  · injection e with e; subst e; simp

@[simp] theorem runSteps_zero : runSteps 0 s = .next s := rfl

theorem runSteps_succ {n : Nat} (h : step s = .next t) : runSteps (n + 1) s = runSteps n t := by
  simp [runSteps, h]

/-- Runs compose. -/
theorem runSteps_add {n m : Nat} : ∀ {s t : State}, runSteps n s = .next t → runSteps (n + m) s = runSteps m t := by
  induction n with
  | zero => intro s t h; injection h with h; subst h; simp
  | succ n ih =>
    intro s t h
    rw [Nat.succ_add_eq_add_succ, Nat.add_succ]
    simp only [runSteps] at h ⊢
    cases hs : step s with
    | next u => rw [hs] at h; exact ih h
    | fault r => rw [hs] at h; cases h
    | refused r => rw [hs] at h; cases h

/-- The host's own runner and `runSteps` agree. -/
theorem runSteps_eq_run (n : Nat) : ∀ s : State, Host.Core.run Sys2Proof.core n s = runSteps n s := by
  induction n with
  | zero => intro s; rfl
  | succ n ih =>
    intro s
    cases h : step s with
    | next t =>
      have h' : Sys2Proof.core.step s = .next t := h
      refine (Host.Core.run.eq_2 Sys2Proof.core s n).trans ?_
      rw [h', runSteps, h]
      exact ih t
    | fault r => cases r
    | refused r =>
      have h' : Sys2Proof.core.step s = .refused r := h
      refine (Host.Core.run.eq_2 Sys2Proof.core s n).trans ?_
      rw [h', runSteps, h]
      rfl

end Sys2Proof.Machine
end

