-- ==== Sys2Proof/Laws/Host.lean ====
section
/-! SUPPORT. The host agent's turn at each control point of `RunOnce`, and what the words it reads and writes mean. -/

namespace Sys2Proof.Machine

variable {s : State}

/-- CTRL bit 0 as the host reads it is the flag. -/
@[simp] theorem ctrlReading_readReg (k : Block) : ctrlReading (readReg .ctrl k) = k.isReading := by
  unfold ctrlReading readReg
  cases k.trigOut <;> cases k.isReading <;> dsimp only <;> decide

/-- What the host takes from a read of CTRL: the flag, or a RESET with no arm since. -/
@[simp] theorem frameAwaited_readReg (hp : HostParams) (a : Bool) (k : Block) :
    frameAwaited hp a (readReg .ctrl k) = (k.isReading || (hp.resetTimesOut && !a)) := by
  rw [frameAwaited, ctrlReading_readReg]

@[simp] theorem lostToReset_setTurns (ts : List Turn) : lostToReset (s.setTurns ts) = lostToReset s := rfl

/-- CTRL as a number. -/
theorem readReg_ctrl (k : Block) : readReg .ctrl k = BitVec.ofNat 32 (2 * k.trigOut.toNat + k.isReading.toNat) := by
  unfold readReg
  cases k.trigOut <;> cases k.isReading <;> dsimp only <;> decide

/-- The host recovers the raw decimal point from its register. -/
@[simp] theorem readReg_resultDp_setWidth (k : Block) : (readReg .resultDp k).setWidth 4 = k.slotDp := by
  simp [readReg]

/-- The host recovers the sign from its register. -/
@[simp] theorem readReg_resultSign_bit (k : Block) : (readReg .resultSign k).getLsbD 0 = k.slotPos := by
  unfold readReg
  cases k.slotPos <;> dsimp only <;> decide

@[simp] theorem readReg_resultValue (k : Block) : readReg .resultValue k = k.slotValue := rfl

/-- The arming write: flag set, trigger low (43_host_cycle.md R183). -/
theorem writeReg_arm (k : Block) : writeReg .ctrl 0x00000001#32 k = { k with isReading := true, trigOut := false } := rfl

/-- The trigger write: flag kept, trigger high (R184). -/
theorem writeReg_trigHi (k : Block) : writeReg .ctrl 0x00000002#32 k = { k with trigOut := true } := rfl

/-- The deasserting write: flag kept, trigger low (R187). -/
theorem writeReg_trigLo (k : Block) : writeReg .ctrl 0x00000000#32 k = { k with trigOut := false } := rfl

/-- The arming write arms, the others of the cycle keep what was armed (10_state.md R34). -/
@[simp] theorem armedAfter_arm (b : Bool) : armedAfter 0x00000001#32 b = true := rfl
@[simp] theorem armedAfter_trigHi (b : Bool) : armedAfter 0x00000002#32 b = b := rfl
@[simp] theorem armedAfter_trigLo (b : Bool) : armedAfter 0x00000000#32 b = b := rfl

theorem hostTurn_idle (h : s.host.phase = .idle) : hostTurn s = .next s := by simp [hostTurn, h, nextAction]

theorem hostTurn_arm (h : s.host.phase = .arm) :
    hostTurn s = .next (((s.setBlock { s.block with isReading := true, trigOut := false }).setArmed true).setPhase
      (if s.hostParams.autoTrigger then .trigger else .settle s.hostParams.settleMs)) := by
  rw [hostTurn, h]
  show andThen (exec _ s) _ = _
  rw [exec_wrCtrl, andThen_next, writeReg_arm]
  simp only [advancePhase, State.setArmed_host, State.setArmed_hostParams, State.setBlock_host,
    State.setBlock_hostParams, h, phaseAfter, armedAfter_arm]
  rfl

theorem hostTurn_trigger (h : s.host.phase = .trigger) :
    hostTurn s = .next ((s.setBlock { s.block with trigOut := true }).setPhase (.settle s.hostParams.settleMs)) := by
  rw [hostTurn, h]
  show andThen (exec _ s) _ = _
  rw [exec_wrCtrl, andThen_next, writeReg_trigHi]
  simp [advancePhase, h, phaseAfter]

theorem hostTurn_settle {left : Nat} (h : s.host.phase = .settle left) :
    hostTurn s = .next (if left = 0 then s.setPhase (pollOrDeassert s.hostParams.pollIters) else s) := by
  by_cases hl : left = 0 <;> simp [hostTurn, h, nextAction, hl, advancePhase, phaseAfter]

theorem hostTurn_poll {more : Nat} (h : s.host.phase = .poll more) :
    hostTurn s = .next ((s.setRdata (readReg .ctrl s.block)).setPhase
      (if s.block.isReading || lostToReset s then .pollSleep s.hostParams.pollSleepMs more else .deassert)) := by
  rw [hostTurn, h]
  show andThen (exec _ s) _ = _
  rw [exec_rdCtrl, andThen_next]
  simp [advancePhase, h, phaseAfter, lostToReset]

theorem hostTurn_pollSleep {left more : Nat} (h : s.host.phase = .pollSleep left more) :
    hostTurn s = .next (if left = 0 then s.setPhase (pollOrDeassert more) else s) := by
  by_cases hl : left = 0 <;> simp [hostTurn, h, nextAction, hl, advancePhase, phaseAfter]

theorem hostTurn_deassert (h : s.host.phase = .deassert) :
    hostTurn s = .next ((s.setBlock { s.block with trigOut := false }).setPhase .verdict) := by
  rw [hostTurn, h]
  show andThen (exec _ s) _ = _
  rw [exec_wrCtrl, andThen_next, writeReg_trigLo]
  simp [advancePhase, h, phaseAfter]

theorem hostTurn_verdict (h : s.host.phase = .verdict) :
    hostTurn s = .next ((s.setRdata (readReg .ctrl s.block)).setPhase
      (if s.block.isReading || lostToReset s then .timedOut else .readValue)) := by
  rw [hostTurn, h]
  show andThen (exec _ s) _ = _
  rw [exec_rdCtrl, andThen_next]
  simp [advancePhase, h, phaseAfter, lostToReset]

theorem hostTurn_timedOut (h : s.host.phase = .timedOut) :
    hostTurn s = .next ((s.setPhase .idle).addOutput (.warn .frameTimeout)) := by
  simp [hostTurn, h, nextAction, advancePhase, phaseAfter]

theorem hostTurn_readValue (h : s.host.phase = .readValue) :
    hostTurn s = .next ((s.setRdata s.block.slotValue).setPhase (.readDp s.block.slotValue)) := by
  rw [hostTurn, h]
  show andThen (exec _ s) _ = _
  rw [exec_rdValue, andThen_next]
  simp [advancePhase, h, phaseAfter]

theorem hostTurn_readDp {v : Word} (h : s.host.phase = .readDp v) :
    hostTurn s = .next ((s.setRdata (readReg .resultDp s.block)).setPhase (.readSign v s.block.slotDp)) := by
  rw [hostTurn, h]
  show andThen (exec _ s) _ = _
  rw [exec_rdDp, andThen_next]
  simp only [advancePhase, State.setRdata_host, State.setRdata_rdata, h, phaseAfter,
    readReg_resultDp_setWidth]

theorem hostTurn_readSign {v : Word} {dp : Nibble} (h : s.host.phase = .readSign v dp) :
    hostTurn s = .next ((s.setRdata (readReg .resultSign s.block)).setPhase (.convert v dp s.block.slotPos)) := by
  rw [hostTurn, h]
  show andThen (exec _ s) _ = _
  rw [exec_rdSign, andThen_next]
  simp only [advancePhase, State.setRdata_host, State.setRdata_rdata, h, phaseAfter,
    readReg_resultSign_bit]

theorem hostTurn_convert {v : Word} {dp : Nibble} {pos : Bool} (h : s.host.phase = .convert v dp pos) :
    hostTurn s = .next ((s.setPhase .idle).addOutput (cycleResult s.hostParams v dp pos)) := by
  simp [hostTurn, h, nextAction, advancePhase, phaseAfter]

/-- The host's turn at every control point. -/
theorem hostTurn_by_phase (s : State) :
  match s.host.phase with
  | .idle => hostTurn s = .next s
  | .arm => hostTurn s = .next (((s.setBlock { s.block with isReading := true, trigOut := false }).setArmed true).setPhase
      (if s.hostParams.autoTrigger then .trigger else .settle s.hostParams.settleMs))
  | .trigger =>
    hostTurn s = .next ((s.setBlock { s.block with trigOut := true }).setPhase (.settle s.hostParams.settleMs))
  | .settle left => hostTurn s = .next (if left = 0 then s.setPhase (pollOrDeassert s.hostParams.pollIters) else s)
  | .poll more => hostTurn s = .next ((s.setRdata (readReg .ctrl s.block)).setPhase
      (if s.block.isReading || lostToReset s then .pollSleep s.hostParams.pollSleepMs more else .deassert))
  | .pollSleep left more => hostTurn s = .next (if left = 0 then s.setPhase (pollOrDeassert more) else s)
  | .deassert => hostTurn s = .next ((s.setBlock { s.block with trigOut := false }).setPhase .verdict)
  | .verdict => hostTurn s = .next ((s.setRdata (readReg .ctrl s.block)).setPhase
      (if s.block.isReading || lostToReset s then .timedOut else .readValue))
  | .timedOut => hostTurn s = .next ((s.setPhase .idle).addOutput (.warn .frameTimeout))
  | .readValue =>
    hostTurn s = .next ((s.setRdata s.block.slotValue).setPhase (.readDp s.block.slotValue))
  | .readDp v =>
    hostTurn s = .next ((s.setRdata (readReg .resultDp s.block)).setPhase (.readSign v s.block.slotDp))
  | .readSign v dp =>
    hostTurn s = .next ((s.setRdata (readReg .resultSign s.block)).setPhase (.convert v dp s.block.slotPos))
  | .convert v dp pos =>
    hostTurn s = .next ((s.setPhase .idle).addOutput (cycleResult s.hostParams v dp pos)) := by
  cases h : s.host.phase with
  | idle => exact hostTurn_idle h
  | arm => exact hostTurn_arm h
  | trigger => exact hostTurn_trigger h
  | settle l => exact hostTurn_settle h
  | poll m => exact hostTurn_poll h
  | pollSleep l m => exact hostTurn_pollSleep h
  | deassert => exact hostTurn_deassert h
  | verdict => exact hostTurn_verdict h
  | timedOut => exact hostTurn_timedOut h
  | readValue => exact hostTurn_readValue h
  | readDp v => exact hostTurn_readDp h
  | readSign v dp => exact hostTurn_readSign h
  | convert v dp pos => exact hostTurn_convert h

end Sys2Proof.Machine
end

