-- ==== Sys2Proof/Laws/PerInstr.lean ====
section
/-! SUPPORT. Per-transaction statements, one lemma per constructor of `Instr`. -/

namespace Sys2Proof.Laws.EncodedWordInRow

/-- The encoded word of a transaction lies in its row of the opcode map (30_encoding.md R76). -/
def Statement (i : Instr) : Prop := matchesRow (encode i).word i = true

theorem nop : Statement .nop := rfl
theorem reset : Statement .reset := rfl
theorem edge (c d : Bool) (T : Nat) : Statement (.edge c d T) := by
  cases c <;> cases d <;> simp [Statement, matchesRow, encode, eventWord, opcodeRow]
theorem rdCtrl : Statement .rdCtrl := rfl
theorem rdValue : Statement .rdValue := rfl
theorem rdDp : Statement .rdDp := rfl
theorem rdSign : Statement .rdSign := rfl
theorem wrCtrl (wdata : Word) : Statement (.wrCtrl wdata) := by
  simp [Statement, matchesRow, encode, busWord, opcodeRow, indexOfReg]
theorem wrValue (wdata : Word) : Statement (.wrValue wdata) := by
  simp [Statement, matchesRow, encode, busWord, opcodeRow, indexOfReg]
theorem wrDp (wdata : Word) : Statement (.wrDp wdata) := by
  simp [Statement, matchesRow, encode, busWord, opcodeRow, indexOfReg]
theorem wrSign (wdata : Word) : Statement (.wrSign wdata) := by
  simp [Statement, matchesRow, encode, busWord, opcodeRow, indexOfReg]

end Sys2Proof.Laws.EncodedWordInRow
end

