-- ==== Sys2Proof/Laws/Runs.lean ====
section
/-! SUPPORT. Runs over a sequence of decoder bits: the run is the fold of the edge over the block, one bit a step. -/

namespace Sys2Proof.Machine

/-- The gap test is about the modular difference of the spec, whatever multiple of `2^TS_W` was cut off the two
timestamps. -/
theorem gapExceeded_iff_gapOf {p : BlockParams} {T : Nat} {k : Block} :
    gapExceeded p T k = true ↔ gapOf p T k.prevTs > p.maxBitWait := by
  rw [gapExceeded_iff, gapOf, ← tsDiff_cast]
  exact Int.ofNat_lt.symm

theorem gapExceeded_false_iff_gapOf {p : BlockParams} {T : Nat} {k : Block} :
    gapExceeded p T k = false ↔ gapOf p T k.prevTs ≤ p.maxBitWait := by
  rw [gapExceeded_false_iff, gapOf, ← tsDiff_cast]
  exact Int.ofNat_le.symm

theorem gapOf_mod (p : BlockParams) (T prev : Nat) :
    gapOf p (T % 2 ^ p.tsW) (prev % 2 ^ p.tsW) = gapOf p T prev := by
  unfold gapOf
  push_cast
  rw [Int.sub_emod_emod, Int.emod_sub_emod]

theorem gapOf_mod_left (p : BlockParams) (T prev : Nat) : gapOf p (T % 2 ^ p.tsW) prev = gapOf p T prev := by
  unfold gapOf
  push_cast
  rw [Int.emod_sub_emod]

/-- The block after the bits `f 0, ..., f (n - 1)`, each with its timestamp. -/
def feed (p : BlockParams) (f : Nat → Nat × Bool) : Nat → Block → Block
  | 0, k => k
  | n + 1, k =>
    edgeBlock p p.clkActiveLevel ((f n).2 ^^ p.dataInvert) ((f n).1 % 2 ^ p.tsW) (feed p f n k)

/-- No edge takes the bit count above 51. -/
theorem edgeBlock_bc_le (p : BlockParams) (c d : Bool) (T : Nat) {k : Block} (h : k.bc.toNat ≤ 51) :
    (edgeBlock p c d T k).bc.toNat ≤ 51 := by
  rcases edgeBlock_cases p c d T k h with ⟨-, e⟩ | ⟨-, -, e⟩ | ⟨-, -, hb, e⟩ | ⟨-, -, -, e⟩ <;> rw [e]
  · exact h
  · simp
  · simp only [BitVec.toNat_add]; simp; omega
  · simp

theorem feed_bc_le (p : BlockParams) (f : Nat → Nat × Bool) {k : Block} (h : k.bc.toNat ≤ 51) :
    ∀ n, (feed p f n k).bc.toNat ≤ 51
  | 0 => h
  | n + 1 => edgeBlock_bc_le _ _ _ _ (feed_bc_le p f h n)

/-- A run over `n` of the bits is `feed`. -/
theorem runSteps_bits {s : State} {f : Nat → Nat × Bool} {N : Nat} {rest : List Turn}
    (hb : s.block.bc.toNat ≤ 51) (ht : s.turns = bitTurns s.params N f ++ rest) :
    ∀ n, n ≤ N → runSteps n s =
      .next ((s.setBlock (feed s.params f n s.block)).setTurns ((bitTurns s.params N f).drop n ++ rest))
  | 0, _ => by rw [List.drop_zero, ← ht]; rfl
  | n + 1, hn => by
    rw [runSteps_add (runSteps_bits hb ht n (by omega))]
    have hd : (bitTurns s.params N f).drop n =
        .transaction (encode (pseudoBit s.params (f n).1 (f n).2)) :: (bitTurns s.params N f).drop (n + 1) := by
      have hlen : n < (bitTurns s.params N f).length := by simp [bitTurns, pseudoBits]; omega
      rw [List.drop_eq_getElem_cons hlen]
      simp [bitTurns, pseudoBits]
    refine runSteps_succ (n := 0) ?_
    rw [step_cons (s := State.setTurns _ _) (by rw [State.setTurns_turns, hd]; rfl), runTurn, pseudoBit,
      runTransaction_instr (decode_encode_edge _ _ _ _), exec_edge _ _ _ (by simpa using feed_bc_le _ _ hb n)]
    rfl

/-- The parts of the block that only a completion writes. -/
def SameResults (k k' : Block) : Prop :=
  k'.isReading = k.isReading ∧ k'.trigOut = k.trigOut ∧ k'.mValue = k.mValue ∧ k'.mDp = k.mDp ∧ k'.mPos = k.mPos
    ∧ k'.slotValue = k.slotValue ∧ k'.slotDp = k.slotDp ∧ k'.slotPos = k.slotPos

theorem SameResults.trans {a b c : Block} (h : SameResults a b) (h' : SameResults b c) : SameResults a c := by
  obtain ⟨h1, h2, h3, h4, h5, h6, h7, h8⟩ := h
  obtain ⟨g1, g2, g3, g4, g5, g6, g7, g8⟩ := h'
  exact ⟨g1.trans h1, g2.trans h2, g3.trans h3, g4.trans h4, g5.trans h5, g6.trans h6, g7.trans h7, g8.trans h8⟩

variable {p : BlockParams} {f : Nat → Nat × Bool} {k : Block}

/-- One bit within the window, before the last of its frame: it is counted, timestamped and shifted in. -/
theorem feed_one (T : Nat) (b : Bool) (hr : k.isReading = true) (hg : gapOf p T k.prevTs ≤ p.maxBitWait)
    (hb : k.bc.toNat ≤ 50) :
    let k' := edgeBlock p p.clkActiveLevel (b ^^ p.dataInvert) (T % 2 ^ p.tsW) k
    SameResults k k' ∧ k'.bc.toNat = k.bc.toNat + 1 ∧ k'.prevTs = T % 2 ^ p.tsW
      ∧ k'.nib = nibSet k.nib (k.bc.toNat / 4) (shiftIn b (nibAt k.nib (k.bc.toNat / 4))) := by
  intro k'
  have hk : k' = _ := edgeBlock_shift (gateOpen_iff.2 ⟨hr, rfl⟩)
    (gapExceeded_false_iff_gapOf.2 (by rw [gapOf_mod_left]; exact hg)) hb
  have hd : dataBit p (b ^^ p.dataInvert) = b := by simp [dataBit]
  rw [hk, hd]
  refine ⟨⟨rfl, rfl, rfl, rfl, rfl, rfl, rfl, rfl⟩, ?_, by simp [storedTs], rfl⟩
  simp only [BitVec.toNat_add]; simp; omega

/-- The first bit of a frame, at a frame boundary or after a gap: the buffer then holds one bit. -/
theorem feed_first (T : Nat) (b : Bool) (hr : k.isReading = true)
    (hg : k.bc = 0#6 ∨ gapOf p T k.prevTs > p.maxBitWait) :
    let k' := edgeBlock p p.clkActiveLevel (b ^^ p.dataInvert) (T % 2 ^ p.tsW) k
    SameResults k k' ∧ k'.bc.toNat = 1 ∧ k'.prevTs = T % 2 ^ p.tsW ∧ (nibAt k'.nib 0).getLsbD 3 = b := by
  intro k'
  have hs : ∀ n, (shiftIn b n).getLsbD 3 = b := by revert b; decide
  by_cases hgap : gapOf p T k.prevTs > p.maxBitWait
  · have hk : k' = _ := edgeBlock_gap (gateOpen_iff.2 ⟨hr, rfl⟩)
      (gapExceeded_iff_gapOf.2 (by rw [gapOf_mod_left]; exact hgap))
    have hd : dataBit p (b ^^ p.dataInvert) = b := by simp [dataBit]
    rw [hk, hd]
    refine ⟨⟨rfl, rfl, rfl, rfl, rfl, rfl, rfl, rfl⟩, rfl, by simp [storedTs], ?_⟩
    rw [nibAt_nibSet _ _ _ _ (by omega), if_pos rfl, hs]
  · have h0 : k.bc = 0#6 := hg.resolve_right hgap
    obtain ⟨h1, h2, h3, h4⟩ := feed_one (p := p) T b hr (by omega) (by simp [h0])
    refine ⟨h1, by rw [h2]; simp [h0], h3, ?_⟩
    rw [h4, h0, nibAt_nibSet _ _ _ _ (by decide), if_pos (by decide), hs]

theorem feed_add (m : Nat) : ∀ n, feed p f (m + n) k = feed p (fun i => f (m + i)) n (feed p f m k)
  | 0 => rfl
  | n + 1 => by
    rw [← Nat.add_assoc, feed, feed, feed_add m n]

/-- Bits without a gap that do not fill the frame: each is counted, and nothing is completed. -/
theorem feed_count {n : Nat} (hr : k.isReading = true) (hb : k.bc.toNat + n ≤ 51)
    (h0 : 0 < n → gapOf p (f 0).1 k.prevTs ≤ p.maxBitWait)
    (hg : ∀ i, i + 1 < n → gapOf p (f (i + 1)).1 (f i).1 ≤ p.maxBitWait) :
    SameResults k (feed p f n k) ∧ (feed p f n k).bc.toNat = k.bc.toNat + n
      ∧ (feed p f n k).prevTs = if n = 0 then k.prevTs else (f (n - 1)).1 % 2 ^ p.tsW := by
  induction n with
  | zero => exact ⟨⟨rfl, rfl, rfl, rfl, rfl, rfl, rfl, rfl⟩, rfl, rfl⟩
  | succ n ih =>
    obtain ⟨h1, h2, h3⟩ := ih (by omega) (fun _ => h0 (by omega)) (fun i hi => hg i (by omega))
    have hgap : gapOf p (f n).1 (feed p f n k).prevTs ≤ p.maxBitWait := by
      rw [h3]
      split
      · subst n; exact h0 (by omega)
      · rw [← gapOf_mod_left, gapOf_mod]
        have := hg (n - 1) (by omega)
        rwa [Nat.sub_add_cancel (by omega)] at this
    obtain ⟨g1, g2, g3, -⟩ := feed_one (f n).1 (f n).2 (h1.1.trans hr) hgap (by omega)
    exact ⟨h1.trans g1, by rw [feed, g2, h2]; omega, by rw [feed, g3]; simp⟩

/-- From a frame boundary, whatever the first gap: `n + 1` bits are counted and nothing is completed. -/
theorem feed_from_zero {n : Nat} (hr : k.isReading = true) (h0 : k.bc = 0#6) (hn : n ≤ 50)
    (hg : ∀ i, i + 1 < n + 1 → gapOf p (f (i + 1)).1 (f i).1 ≤ p.maxBitWait) :
    SameResults k (feed p f (n+1) k) ∧ (feed p f (n+1) k).bc.toNat = n+1
      ∧ (feed p f (n+1) k).prevTs = (f n).1 % 2 ^ p.tsW := by
  obtain ⟨h1, h2, h3, -⟩ := feed_first (p := p) (f 0).1 (f 0).2 hr (.inl h0)
  have e : feed p f (n+1) k = feed p (fun i => f (1 + i)) n (feed p f 1 k) := by rw [Nat.add_comm n 1, feed_add]
  rw [e]
  have hc := feed_count (p := p) (f := fun i => f (1+i)) (k := feed p f 1 k) (n := n) (h1.1.trans hr)
    (by show (feed p f 1 k).bc.toNat + n ≤ 51; rw [feed, feed, h2]; omega)
    (fun h => by
      rw [show (feed p f 1 k).prevTs = _ from h3, ← gapOf_mod_left, gapOf_mod]; exact hg 0 (by omega))
    (fun i hi => by
      show gapOf p (f (1 + (i + 1))).1 (f (1 + i)).1 ≤ _
      rw [show 1 + (i + 1) = i + 1 + 1 by omega, show 1 + i = i + 1 by omega]
      exact hg (i + 1) (by omega))
  refine ⟨SameResults.trans h1 hc.1, by rw [hc.2.1, feed, feed, h2]; omega, ?_⟩
  rw [hc.2.2]; split
  · subst n; exact h3
  · rw [show 1 + (n - 1) = n by omega]

/-- What the buffer holds after `n` bits from a frame boundary: full nibbles with their first bit lowest, and the
current nibble's bits at its top. -/
def Content (f : Nat → Nat × Bool) (n : Nat) (v : Nibbles) : Prop :=
  ∀ j i, j < 13 → i < 4 → 4 * j + i < n →
    (if n / 4 = j then (nibAt v j).getLsbD (4 - n % 4 + i) else (nibAt v j).getLsbD i) = (f (4 * j + i)).2

theorem shiftIn_bit (b : Bool) (n : Nibble) (i : Nat) (h : i < 4) :
    (shiftIn b n).getLsbD i = if i = 3 then b else n.getLsbD (i+1) := by
  have : ∀ b n, ∀ i : Fin 4,
      (shiftIn b n).getLsbD i = if i.val = 3 then b else n.getLsbD (i.val + 1) := by decide
  exact this b n ⟨i, h⟩

theorem feed_content (hr : k.isReading = true) (h0 : k.bc = 0#6) : ∀ n, n ≤ 50 →
    (∀ i, i + 1 < n + 1 → gapOf p (f (i + 1)).1 (f i).1 ≤ p.maxBitWait) → Content f (n+1) (feed p f (n+1) k).nib := by
  intro n
  induction n with
  | zero =>
    intro _ _ j i hj hi hlt
    obtain ⟨h1, h2, h3, h4⟩ := feed_first (p := p) (f 0).1 (f 0).2 hr (.inl h0)
    obtain rfl : j = 0 := by omega
    obtain rfl : i = 0 := by omega
    exact h4
  | succ n ih =>
    intro hn hg
    have ih := ih (by omega) (fun i hi => hg i (by omega))
    obtain ⟨a1, a2, a3⟩ := feed_from_zero (p := p) (f := f) (n := n) hr h0 (by omega) (fun i hi => hg i (by omega))
    obtain ⟨-, -, -, g4⟩ := feed_one (p := p) (k := feed p f (n+1) k) (f (n+1)).1 (f (n+1)).2 (a1.1.trans hr)
      (by rw [a3, ← gapOf_mod_left, gapOf_mod]; exact hg n (by omega)) (by omega)
    intro j i hj hi hlt
    rw [show (feed p f (n+1+1) k).nib = _ from g4, a2]
    have ih := ih j i hj hi
    rw [nibAt_nibSet _ _ _ _ (by omega)]
    by_cases hjn : j = (n+1)/4
    · rw [if_pos hjn]
      subst hjn
      by_cases hfull : (n+1) % 4 = 3
      · rw [if_neg (by omega), shiftIn_bit _ _ _ hi]
        split
        · rw [show 4 * ((n+1)/4) + i = n + 1 by omega]
        · rw [← ih (by omega), if_pos rfl, hfull, show 4 - 3 + i = i + 1 by omega]
      · rw [if_pos (by omega), shiftIn_bit _ _ _ (by omega)]
        split
        · rw [show 4 * ((n+1)/4) + i = n + 1 by omega]
        · rw [← ih (by omega), if_pos rfl]; congr 1; omega
    · rw [if_neg hjn, if_neg (by omega)]
      rw [← ih (by omega), if_neg (by omega)]

/-- After 51 bits of a frame, nibbles 0 to 11 are final. -/
theorem nibAt_of_content {F : FrameWord} {ts : Nat → Nat} {v : Nibbles}
    (h : Content (fun i => (ts i, frameBit F i)) 51 v) (j : Nat) (hj : j < 12) : nibAt v j = frameNibble F j := by
  apply BitVec.eq_of_getLsbD_eq
  intro i hi
  have := h j i (by omega) hi (by omega)
  rw [if_neg (by omega)] at this
  rw [this]
  simp [frameNibble, frameBit, hi]

end Sys2Proof.Machine
end

