-- ==== Sys2Proof/Tests/Slice0.lean ====
section
/-! SUPPORT. Tests: the well-formedness smoke test, decoding of words written out from the spec's encodings, single
steps from the spec's test vectors (95_test_vectors.md, V numbers), and a witness for the hypotheses of each
statement. -/

namespace Sys2Proof.Tests

open Sys2Proof Sys2Proof.Machine

/-! ## Helpers -/

/-- The 13 nibbles written as the test vectors write them, `NIB[0]` first, missing ones 0. -/
def nibs (l : List Nat) : Nibbles := Vector.ofFn fun k => BitVec.ofNat 4 (l.getD k.val 0)

/-- The test vectors' "armed". -/
def armed : State := (State.reset.setBlock { Block.reset with isReading := true }).setArmed true

/-- An armed state with some bits taken. -/
def midFrame (bc : BitVec 6) (l : List Nat) (prev : Nat) : State :=
  armed.setBlock { Block.reset with isReading := true, bc := bc, nib := nibs l, prevTs := prev }

/-- The state of V15 after 51 bits, all 1, the last at 150. -/
def fiftyOne : State := midFrame 51#6 [15, 15, 15, 15, 15, 15, 15, 15, 15, 15, 15, 15, 14] 150

/-- A state with a published slot. -/
def published (v : Nat) (dp : Nat) (pos : Bool) : State :=
  armed.setBlock { Block.reset with
    mValue := BitVec.ofNat 21 v, mDp := BitVec.ofNat 4 dp, mPos := pos,
    slotValue := BitVec.ofNat 32 v, slotDp := BitVec.ofNat 4 dp, slotPos := pos }

/-- A host at a control point whose turn comes next. -/
def hostAt (q : HostPhase) (s : State) : State := (s.setPhase q).setTurns [.host]

/-- What `f` sees after a transaction, if it gives a next state. -/
def after {α : Type} (i : Instr) (s : State) (f : State → α) : Option α :=
  match exec i s with
  | .next t => some (f t)
  | .fault _ => none
  | .refused _ => none

/-- What `f` sees after a step. -/
def afterStep {α : Type} (s : State) (f : State → α) : Option α :=
  match step s with
  | .next t => some (f t)
  | .fault _ => none
  | .refused _ => none

/-- `BC`, `NIB`, `PREV_TS`. -/
def decoderView (t : State) : Nat × List Nat × Nat :=
  (t.block.bc.toNat, t.block.nib.toList.map BitVec.toNat, t.block.prevTs)

/-- `SLOT` and `IS_READING`. -/
def slotView (t : State) : Nat × Nat × Bool × Bool :=
  (t.block.slotValue.toNat, t.block.slotDp.toNat, t.block.slotPos, t.block.isReading)

/-! ## Well-formedness -/

theorem test_wf_refuses_wide_timestamp : (Instr.edge false false (2 ^ 32)).wf 32 = false := by decide

theorem test_wf_accepts_largest_timestamp : (Instr.edge true true (2 ^ 32 - 1)).wf 32 = true := by decide

/-! ## Decoding: words written bit by bit from R71, R73, R74, R75 -/

theorem test_decode_nop : decode 32 ⟨0b00000000#8, 0⟩ = .instr .nop := by decide
theorem test_decode_reset : decode 32 ⟨0b00000001#8, 0⟩ = .instr .reset := by decide
theorem test_decode_edge_clock : decode 32 ⟨0b00010010#8, 7⟩ = .instr (.edge true false 7) := by decide
theorem test_decode_edge_data : decode 32 ⟨0b00010001#8, 7⟩ = .instr (.edge false true 7) := by decide
theorem test_decode_rdCtrl : decode 32 ⟨0b10000000#8, 0⟩ = .instr .rdCtrl := by decide
theorem test_decode_rdValue : decode 32 ⟨0b10000001#8, 0⟩ = .instr .rdValue := by decide
theorem test_decode_rdDp : decode 32 ⟨0b10000010#8, 0⟩ = .instr .rdDp := by decide
theorem test_decode_rdSign : decode 32 ⟨0b10000011#8, 0⟩ = .instr .rdSign := by decide
theorem test_decode_wrCtrl : decode 32 ⟨0b11000000#8, 3⟩ = .instr (.wrCtrl 3#32) := by decide
theorem test_decode_wrValue : decode 32 ⟨0b11000001#8, 9⟩ = .instr (.wrValue 9#32) := by decide
theorem test_decode_wrDp : decode 32 ⟨0b11000010#8, 9⟩ = .instr (.wrDp 9#32) := by decide
theorem test_decode_wrSign : decode 32 ⟨0b11000011#8, 1⟩ = .instr (.wrSign 1#32) := by decide

/-- V42 to V46. -/
theorem test_decode_reserved :
    [0x02#8, 0x14#8, 0x20#8, 0x84#8, 0xFF#8].map (fun w => decode 32 ⟨w, 0⟩) =
      [.reserved 0x02#8, .reserved 0x14#8, .reserved 0x20#8, .reserved 0x84#8, .reserved 0xFF#8] := by decide

/-- The table's words by number: the operand stands above bit 7. -/
theorem test_decodeTableWord_edge : decodeTableWord 40 0x000003E811 = some (.edge false true 1000) := by decide
theorem test_decodeTableWord_wrCtrl : decodeTableWord 40 0x00000003C0 = some (.wrCtrl 3#32) := by decide
theorem test_decodeTableWord_short : decodeTableWord 8 0x83 = some .rdSign := by decide
theorem test_decodeTableWord_reserved : decodeTableWord 8 0xFF = none := by decide

theorem test_withFetchWord_runs : afterStep (State.reset.withFetchWord 40 0x00000003C0) (fun t =>
    (t.block.isReading, t.block.trigOut, t.turns)) = some (true, true, []) := by decide

/-! ## EDGE and the decoder -/

/-- The gate and the shift: V2 (not armed), V3 (inactive clock level), V4 (first bit), V5 (inverted data), V6 (active
level high), V8 at its fourth bit, V9 (the bit after it). -/
theorem test_edge_gate_and_shift :
    after (.edge false true 10) State.reset decoderView = some (0, [0, 0, 0, 0, 0, 0, 0, 0, 0, 0, 0, 0, 0], 0)
    ∧ after (.edge true true 11) armed decoderView = some (0, [0, 0, 0, 0, 0, 0, 0, 0, 0, 0, 0, 0, 0], 0)
    ∧ after (.edge false true 1000) armed decoderView = some (1, [8, 0, 0, 0, 0, 0, 0, 0, 0, 0, 0, 0, 0], 1000)
    ∧ after (.edge false true 1000) { armed with params := { dataInvert := true } } decoderView =
      some (1, [0, 0, 0, 0, 0, 0, 0, 0, 0, 0, 0, 0, 0], 1000)
    ∧ after (.edge true true 1001) { armed with params := { clkActiveLevel := true } } decoderView =
      some (1, [8, 0, 0, 0, 0, 0, 0, 0, 0, 0, 0, 0, 0], 1001)
    ∧ after (.edge false true 1003) (midFrame 3#6 [4] 1002) decoderView =
      some (4, [10, 0, 0, 0, 0, 0, 0, 0, 0, 0, 0, 0, 0], 1003)
    ∧ after (.edge false true 1004) (midFrame 4#6 [10] 1003) decoderView =
      some (5, [10, 8, 0, 0, 0, 0, 0, 0, 0, 0, 0, 0, 0], 1004) := by decide

/-- The gap and the completion: V10 and V11 (30 is no gap, 31 is), V12 and V13 (across a wrap), V13a (time went back),
V15 (a gap before the 52nd bit), V16 (completion with the largest value), V20 (a 16-bit slot is cut), V23 (a digit
above 9). -/
theorem test_edge_gap_and_completion :
    after (.edge false true 1030) (midFrame 5#6 [10, 8] 1000) decoderView =
      some (6, [10, 12, 0, 0, 0, 0, 0, 0, 0, 0, 0, 0, 0], 1030)
    ∧ after (.edge false true 1031) (midFrame 5#6 [10, 8] 1000) decoderView =
      some (1, [8, 0, 0, 0, 0, 0, 0, 0, 0, 0, 0, 0, 0], 1031)
    ∧ after (.edge false true 0x0000000D) (midFrame 5#6 [10, 8] 0xFFFFFFF0) (fun t => t.block.bc) = some 6#6
    ∧ after (.edge false true 0x0000000F) (midFrame 5#6 [10, 8] 0xFFFFFFF0) (fun t => t.block.bc) = some 1#6
    ∧ after (.edge false true 999) (midFrame 5#6 [10, 8] 1000) (fun t => t.block.bc) = some 1#6
    ∧ after (.edge false true 181) fiftyOne (fun t => (t.block.bc, slotView t)) = some (1#6, (0, 0, true, true))
    ∧ after (.edge false true 180) fiftyOne (fun t => (decoderView t, slotView t)) =
      some ((0, [0, 0, 0, 0, 0, 0, 0, 0, 0, 0, 0, 0, 0], 180), (1666665, 15, false, false))
    ∧ after (.edge false false 1051)
        { midFrame 51#6 [0, 0, 0, 0, 0, 1, 2, 3, 4, 5, 6, 2, 0] 1050 with params := { slotValueW := 16 } }
        (fun t => (t.block.mValue.toNat, slotView t)) = some (123456, (57920, 2, true, false))
    ∧ after (.edge false false 5051) (midFrame 51#6 [0, 0, 0, 0, 0, 0, 10] 5050) slotView =
      some (100000, 0, true, false) := by
  refine ⟨?_, ?_, ?_, ?_, ?_, ?_, ?_, ?_, ?_⟩ <;> decide

/-! ## The frame's wire format: the round trip example of the source (X3), and V19 -/

theorem test_frame_fields :
    (framePos 0x0265432100000#52, frameDigits 0x0265432100000#52, frameDp 0x0265432100000#52) =
      (true, 123456, 2#4)
    ∧ (framePos 0x359999998DCBA#52, frameDigits 0x359999998DCBA#52, frameDp 0x359999998DCBA#52) =
      (false, 999999, 5#4) := by decide

/-- Words 16 to 27 of the example's 52 EDGE words: 10 10 10 10 11 10 10 10 10 11 10 10. -/
theorem test_frame_words :
    (((pseudoFrame {} 1000 0x0265432100000#52).drop 16).take 12).map (fun i => (encode i).word.toNat) =
      [0x10, 0x10, 0x10, 0x10, 0x11, 0x10, 0x10, 0x10, 0x10, 0x11, 0x10, 0x10] := by decide

/-! ## Host reads and writes -/

/-- V32, and V33 from it: a 0 in bit 0 does not clear the flag. -/
theorem test_wrCtrl_arm_and_trigger :
    after (.wrCtrl 3#32) State.reset (fun t =>
      (t.block.isReading, t.block.trigOut, (readReg .ctrl t.block).toNat)) = some (true, true, 3)
    ∧ after (.wrCtrl 0#32) (State.reset.setBlock { Block.reset with isReading := true, trigOut := true }) (fun t =>
      (t.block.isReading, t.block.trigOut, (readReg .ctrl t.block).toNat)) = some (true, false, 1) := by decide

/-- V34 (bits 31:2 are ignored) and V36 (arming again leaves a partial frame). -/
theorem test_wrCtrl_reserved_bits_and_rearm :
    after (.wrCtrl 0xFFFFFFFC#32) State.reset (fun t => t.block) = some Block.reset
    ∧ after (.wrCtrl 1#32) (midFrame 1#6 [8] 12) (fun t => t.block) = some (midFrame 1#6 [8] 12).block := by decide

/-- V37. -/
theorem test_wrResults_ignored :
    after (.wrValue 0xFFFFFFFF#32) (published 5 2 false) slotView = some (5, 2, false, false)
    ∧ after (.wrDp 0#32) (published 5 2 false) slotView = some (5, 2, false, false)
    ∧ after (.wrSign 1#32) (published 5 2 false) slotView = some (5, 2, false, false) := by decide

/-- V38. -/
theorem test_reads_at_reset :
    [Instr.rdCtrl, .rdValue, .rdDp, .rdSign].map (fun i => after i State.reset fun t => t.rdata.toNat) =
      [some 0, some 0, some 0, some 1] := by decide

/-- V31 and V39. -/
theorem test_reads_of_slot :
    [Instr.rdCtrl, .rdValue, .rdDp, .rdSign].map (fun i => after i (published 123456 2 true) fun t => t.rdata.toNat) =
      [some 0, some 0x0001E240, some 2, some 1]
    ∧ [Instr.rdValue, .rdDp, .rdSign].map (fun i => after i (published 1666665 15 false) fun t => t.rdata.toNat) =
      [some 0x00196E69, some 15, some 0] := by decide

/-! ## NOP, RESET and reserved words -/

/-- V40. -/
theorem test_nop : after .nop fiftyOne (fun t => t) = some fiftyOne := by decide

/-- V41. -/
theorem test_reset :
    after .reset (State.reset.setBlock { (published 123456 2 true).block with
      bc := 17#6, isReading := true, trigOut := true }) (fun t => t) = some State.reset := by decide

/-- V42. -/
theorem test_reserved_word : afterStep (State.reset.withFetchWord 8 0x02) (fun t => t) =
    some { State.reset with refused := true } := by decide

/-- V47. -/
theorem test_reset_keeps_refused : after .reset { State.reset with refused := true } (fun t => t.refused) =
    some true := by decide

/-! ## The host -/

/-- V55, V56, V57, and V53 and V59, which are not malformed. -/
theorem test_malformed :
    [malformed 1666665#32 15#4, malformed 123#32 6#4, malformed 1000000#32 0#4, malformed 999999#32 5#4,
      malformed 100000#32 0#4] = [true, true, true, false, false] := by decide

/-- V50, V51, V54. -/
theorem test_scaledValue :
    scaledValue {} 123456#32 2#4 true = 123456 / 100 ∧ scaledValue {} 1#32 0#4 false = -1
      ∧ scaledValue {} 0#32 0#4 false = 0 := by
  refine ⟨?_, ?_, ?_⟩ <;> norm_num [scaledValue]

/-- V58. -/
theorem test_scaledValue_inverted : scaledValue { invertSign := true } 123456#32 2#4 true = -(123456 / 100) := by
  norm_num [scaledValue]

/-- V62: the poll that finds the flag clear, with the trigger still high. -/
theorem test_poll_breaks :
    afterStep (hostAt (.poll 27) (armed.setBlock { Block.reset with trigOut := true })) (fun t =>
      (t.rdata.toNat, t.host.phase)) = some (2, .deassert) := by decide

/-- V61 and V63: with the flag still set the poll is followed by the sleep of 5 ms, and without automatic trigger the
arm is followed by the settle delay of 10 ms. -/
theorem test_poll_sleeps_and_trigger_skipped :
    afterStep (hostAt (.poll 27) armed) (fun t => (t.rdata.toNat, t.host.phase)) = some (1, .pollSleep 5 27)
    ∧ afterStep (hostAt .arm { State.reset with hostParams := { autoTrigger := false } }) (fun t =>
      (t.block.isReading, t.block.trigOut, t.host.phase)) = some (true, false, .settle 10) := by decide

/-- A delay is not over before its milliseconds have passed. -/
theorem test_delay :
    afterStep (hostAt (.settle 1) State.reset) (fun t => t.host.phase) = some (.settle 1)
    ∧ afterStep ((hostAt (.settle 10) State.reset).setTurns [.tick 11]) (fun t => t.host.phase) =
      some (.settle 0) := by decide

/-- A RESET in a cycle: bit 0 = 0 means success (R187, the default), and with R230 (c) taken instead the verdict is a
timeout (log 14); an arm after the RESET counts. -/
theorem test_reset_in_cycle :
    after .reset armed (fun t => afterStep (hostAt .verdict t) fun u => u.host.phase) = some (some .readValue)
    ∧ after .reset { armed with hostParams := { resetTimesOut := true } } (fun t =>
      afterStep (hostAt .verdict t) fun u => u.host.phase) = some (some .timedOut)
    ∧ after .reset armed (fun t => after (.wrCtrl 1#32) t State.armedSinceReset) = some (some true) := by decide

/-! ## Assembler syntax: lines of the spec's programs P1 and P3 -/

theorem test_asmText :
    [asmText (.edge false true 10), asmText (.wrValue 0xFFFFFFFF#32), asmText (.wrCtrl 1#32), asmText .rdDp] =
      ["EDGE 10, 0, 1", "WR.VALUE 0xFFFFFFFF", "WR.CTRL 0x00000001", "RD.DP"] := by decide

/-! ## Witnesses: for each statement with hypotheses, values that meet all of them -/

/-- A machine whose next turn is one transaction from outside. -/
def incoming (w : Code) (n : Nat) (s : State) : State := s.setTurns [.transaction ⟨w, n⟩]

theorem fiftyOne_inv : BlockInv fiftyOne.params fiftyOne.block where
  bc_le := by decide
  nib_above := by decide
  nib_current := by decide
  prevTs_lt := by decide
  mValue_le := by decide
  slotValue_eq := by decide
  slotDp_eq := by decide
  slotPos_eq := by decide
  pend_clear := by decide

theorem witness_DecodeAndEncodeAgree :
    (Instr.edge true false (2 ^ 32 - 1)).wf 32 = true
    ∧ decode 32 ⟨0x13#8, 2 ^ 32⟩ = .instr (.edge true true 0)
    ∧ matchesRow 0x12#8 (.edge true false 0) = true ∧ matchesRow 0x12#8 (.edge false false 9) = true := by decide

/-- A word in no row (V42). -/
theorem witness_WordInNoRow (i : Instr) : matchesRow 0x02#8 i = false := by
  cases i <;> simp [matchesRow, opcodeRow]

theorem witness_StepRunsDecodedTransaction :
    (incoming 0x13#8 5 armed).turns = .transaction ⟨0x13#8, 5⟩ :: []
    ∧ decode (incoming 0x13#8 5 armed).params.tsW ⟨0x13#8, 5⟩ = .instr (.edge true true 5)
    ∧ decode armed.params.tsW (transactionOfBits 40 0x0000000513) = .instr (.edge true true 5)
    ∧ (hostAt .verdict armed).turns = .host :: []
    ∧ nextAction (hostAt .verdict armed).hostParams (hostAt .verdict armed).host.phase = some (.issue .rdCtrl) := by
  refine ⟨rfl, ?_, ?_, rfl, rfl⟩ <;> decide

theorem witness_ReservedWordOnlyRefuses :
    (incoming 0x14#8 0 armed).turns = .transaction ⟨0x14#8, 0⟩ :: []
    ∧ decode (incoming 0x14#8 0 armed).params.tsW ⟨0x14#8, 0⟩ = .reserved 0x14#8 := by decide

/-- Both ways to `REFUSED = 1` and the way to keep 0, from a state with the invariant. -/
theorem witness_RefusedIsSticky :
    BlockInv (incoming 0x14#8 0 fiftyOne).params (incoming 0x14#8 0 fiftyOne).block
    ∧ afterStep (incoming 0x14#8 0 fiftyOne) State.refused = some true
    ∧ afterStep { incoming 0x01#8 0 fiftyOne with refused := true } State.refused = some true
    ∧ afterStep (incoming 0x01#8 0 fiftyOne) State.refused = some false := by
  refine ⟨fiftyOne_inv, ?_, ?_, ?_⟩ <;> decide

theorem witness_ResetTransactions :
    exec .reset fiftyOne = .next ((fiftyOne.setBlock resetBlock).setArmed false) := rfl

theorem witness_GatedEdge :
    State.reset.block.isReading = false
    ∧ armed.block.isReading = true ∧ true ≠ armed.params.clkActiveLevel := by decide

/-- The first bit and the 51st, 30 ms after the one before. -/
theorem witness_EdgeShiftsItsBitIn :
    (armed.block.isReading = true ∧ false = armed.params.clkActiveLevel ∧ armed.block.bc.toNat ≤ 50
      ∧ gapOf armed.params 30 armed.block.prevTs ≤ armed.params.maxBitWait)
    ∧ ((midFrame 50#6 [] 100).block.isReading = true ∧ (midFrame 50#6 [] 100).block.bc.toNat ≤ 50
      ∧ gapOf {} 130 (midFrame 50#6 [] 100).block.prevTs ≤ ({} : BlockParams).maxBitWait) := by decide

theorem witness_EdgeAfterGap :
    fiftyOne.block.isReading = true ∧ false = fiftyOne.params.clkActiveLevel ∧ fiftyOne.block.bc.toNat ≤ 51
    ∧ gapOf fiftyOne.params 181 fiftyOne.block.prevTs > fiftyOne.params.maxBitWait := by decide

theorem witness_FiftySecondBit :
    fiftyOne.block.isReading = true ∧ false = fiftyOne.params.clkActiveLevel ∧ fiftyOne.block.bc.toNat = 51
    ∧ gapOf fiftyOne.params 180 fiftyOne.block.prevTs ≤ fiftyOne.params.maxBitWait
    ∧ 1666665 = (nibAt fiftyOne.block.nib 5).toNat * 100000 + (nibAt fiftyOne.block.nib 6).toNat * 10000
      + (nibAt fiftyOne.block.nib 7).toNat * 1000 + (nibAt fiftyOne.block.nib 8).toNat * 100
      + (nibAt fiftyOne.block.nib 9).toNat * 10 + (nibAt fiftyOne.block.nib 10).toNat := by decide

theorem witness_EdgeFrame : fiftyOne.block.bc.toNat ≤ 51 ∧ fiftyOne.block.isReading = true := by decide

theorem witness_EdgeBeyondBitCount :
    (midFrame 52#6 [] 0).block.isReading = true ∧ false = (midFrame 52#6 [] 0).params.clkActiveLevel
    ∧ 51 < (midFrame 52#6 [] 0).block.bc.toNat := by decide

theorem witness_GapResetRule :
    gapOf {} 181 fiftyOne.block.prevTs > ({} : BlockParams).maxBitWait
    ∧ gapOf {} 180 fiftyOne.block.prevTs ≤ ({} : BlockParams).maxBitWait := by decide

/-- Timestamps one millisecond apart have no gap between them. -/
theorem gap_one (T : Nat) : gapOf {} (T + 1) T = 1 := by
  have h : (((T + 1 : Nat) : Int) - (T : Int)) = 1 := by push_cast; ring
  unfold gapOf
  rw [h]
  rfl

/-- The round trip frame of the source, one bit per millisecond from 1000 (V1). -/
theorem witness_WholeFrame :
    let s := armed.setTurns (bitTurns armed.params 52 (fun i => (1000 + i, frameBit 0x0265432100000#52 i)) ++ [])
    s.block.isReading = true ∧ s.block.bc = 0#6
    ∧ (∀ i, i + 1 < 52 → gapOf s.params (1000 + (i + 1)) (1000 + i) ≤ s.params.maxBitWait)
    ∧ s.turns = bitTurns s.params 52 (fun i => (1000 + i, frameBit 0x0265432100000#52 i)) ++ [] := by
  refine ⟨rfl, rfl, fun i _ => ?_, rfl⟩
  show gapOf {} (1000 + i + 1) (1000 + i) ≤ _
  rw [gap_one]
  decide

/-- Bits of value 1, one per millisecond but for 50 ms before bit `m`. -/
def gappedBits (m i : Nat) : Nat × Bool := (if i < m then 100 + i else 149 + i, true)

/-- A gap before the second bit and one before the last. -/
theorem witness_GapInsideAFrame (m : Nat) (hm : m = 1 ∨ m = 51) :
    let s := armed.setTurns (bitTurns armed.params 52 (gappedBits m) ++ [])
    s.block.isReading = true ∧ s.block.bc = 0#6 ∧ 0 < m ∧ m < 52
    ∧ (∀ i, i + 1 < 52 → i + 1 ≠ m →
        gapOf s.params (gappedBits m (i + 1)).1 (gappedBits m i).1 ≤ s.params.maxBitWait)
    ∧ gapOf s.params (gappedBits m m).1 (gappedBits m (m - 1)).1 > s.params.maxBitWait
    ∧ s.turns = bitTurns s.params 52 (gappedBits m) ++ [] := by
  refine ⟨rfl, rfl, by omega, by omega, fun i _ hi => ?_, ?_, rfl⟩
  · show gapOf {} (gappedBits m (i + 1)).1 (gappedBits m i).1 ≤ ((30 : Nat) : Int)
    unfold gappedBits
    dsimp only
    split <;> split <;> first
      | omega
      | (rw [show 100 + (i + 1) = 100 + i + 1 by omega, gap_one]; decide)
      | (rw [show 149 + (i + 1) = 149 + i + 1 by omega, gap_one]; decide)
  · rcases hm with rfl | rfl <;> decide

/-- An empty buffer and a buffer that lacks one bit. -/
theorem witness_StalePartialFrame :
    (let s := armed.setTurns (bitTurns armed.params (52 - 0) (fun i => (1 + i, true)) ++ [])
    s.block.isReading = true ∧ s.block.bc.toNat = 0 ∧ gapOf s.params 1 s.block.prevTs ≤ s.params.maxBitWait
    ∧ (∀ i, i + 1 < 52 - 0 → gapOf s.params (1 + (i + 1)) (1 + i) ≤ s.params.maxBitWait))
    ∧ (let s := fiftyOne.setTurns (bitTurns fiftyOne.params (52 - 51) (fun i => (151 + i, true)) ++ [])
    s.block.isReading = true ∧ s.block.bc.toNat = 51 ∧ gapOf s.params 151 s.block.prevTs ≤ s.params.maxBitWait
    ∧ (∀ i, i + 1 < 52 - 51 → gapOf s.params (151 + (i + 1)) (151 + i) ≤ s.params.maxBitWait)) := by
  refine ⟨⟨rfl, rfl, by decide, fun i _ => ?_⟩, rfl, rfl, by decide, fun i h => by omega⟩
  show gapOf {} (1 + i + 1) (1 + i) ≤ _
  rw [gap_one]
  decide

theorem witness_ReadsAndWrites (i : Instr) (h : i = .rdCtrl ∨ i = .rdValue ∨ i = .rdDp ∨ i = .rdSign) :
    (∃ t u, exec i fiftyOne = .next t ∧ exec i t = .next u) ∧ ∃ t, exec (.wrCtrl 3#32) fiftyOne = .next t := by
  rcases h with rfl | rfl | rfl | rfl <;> exact ⟨⟨_, _, rfl, rfl⟩, _, rfl⟩

/-- For the statements about any step: a completing edge, from a state with the invariant. -/
theorem witness_Step : BlockInv (incoming 0x11#8 180 fiftyOne).params (incoming 0x11#8 180 fiftyOne).block
    ∧ (afterStep (incoming 0x11#8 180 fiftyOne) fun t => t).isSome = true := ⟨fiftyOne_inv, by decide⟩

/-- Each premise of the writers' rule is met: a changed decoder, a changed flag, a changed trigger, a changed read
result. -/
theorem witness_Writers :
    (afterStep (incoming 0x11#8 180 fiftyOne) fun t => decide (t.block.slotValue ≠ fiftyOne.block.slotValue)) =
      some true
    ∧ (afterStep (incoming 0x11#8 180 fiftyOne) fun t => decide (t.block.isReading ≠ fiftyOne.block.isReading)) =
      some true
    ∧ (afterStep (incoming 0xC0#8 2 fiftyOne) fun t => decide (t.block.trigOut ≠ fiftyOne.block.trigOut)) = some true
    ∧ (afterStep (incoming 0x83#8 0 fiftyOne) fun t => decide (t.rdata ≠ fiftyOne.rdata)) = some true := by decide

/-- The flag is set by an arm, and cleared by a completing edge and by RESET. -/
theorem witness_Flag :
    (State.reset.block.isReading = false
      ∧ (afterStep (incoming 0xC0#8 1 State.reset) fun t => t.block.isReading) = some true)
    ∧ (fiftyOne.block.isReading = true
      ∧ (afterStep (incoming 0x11#8 180 fiftyOne) fun t => t.block.isReading) = some false
      ∧ (afterStep (incoming 0x01#8 0 fiftyOne) fun t => t.block.isReading) = some false) := by decide

theorem witness_SlotAndFlag :
    stepInstr (incoming 0x11#8 180 fiftyOne) = some (.edge false true 180)
    ∧ (afterStep (incoming 0x11#8 180 fiftyOne) fun t => decide (t.block.slotDp ≠ fiftyOne.block.slotDp)) =
      some true := by decide

/-- The host's deasserting write and then an edge, neither of which arms or resets. -/
theorem witness_UnarmedBlock :
    let s := ((published 5 2 false).setPhase .deassert).setTurns [.host, .transaction ⟨0x11#8, 7⟩]
    s.block.isReading = false ∧ noStepPerforms armsOrResets 2 s ∧ ∃ t, runSteps 2 s = .next t := by
  refine ⟨rfl, ⟨?_, ?_⟩, _, rfl⟩
  · intro i h
    obtain rfl : Instr.wrCtrl 0#32 = i := Option.some.inj h
    decide
  · intro t h
    injection h with h
    subst h
    refine ⟨?_, fun _ _ => trivial⟩
    intro i h
    obtain rfl : Instr.edge false true 7 = i := Option.some.inj h
    decide

/-- Every control point that a statement about one host turn starts from. -/
theorem witness_HostTurns :
    ∀ q ∈ [HostPhase.arm, .trigger, .settle 0, .poll 27, .poll 0, .pollSleep 0 0, .pollSleep 0 3, .pollSleep 2 3,
        .deassert, .verdict],
      (hostAt q armed).turns = .host :: [] ∧ (hostAt q armed).host.phase = q := by decide

/-- The hand-off invariant while the host reads, before each of its turns, and for each result. -/
theorem witness_Handoff :
    HandoffInv (hostAt .readValue (published 5 2 false)) ∧ HandoffInv (hostAt (.readDp 5#32) (published 5 2 false))
    ∧ HandoffInv (hostAt (.readSign 5#32 2#4) (published 5 2 false))
    ∧ HandoffInv (hostAt (.convert 999999#32 5#4 false) (published 999999 5 false))
    ∧ HandoffInv (hostAt (.convert 1000000#32 0#4 true) (published 1000000 0 true))
    ∧ HandoffInv (hostAt (.convert 5#32 6#4 true) (published 5 6 true))
    ∧ quietTurn 32 .host = true ∧ quietTurn 32 (.transaction ⟨0x11#8, 9⟩) = true := by
  exact ⟨rfl, ⟨rfl, rfl⟩, ⟨rfl, rfl, rfl⟩, ⟨rfl, rfl, rfl, rfl⟩, ⟨rfl, rfl, rfl, rfl⟩, ⟨rfl, rfl, rfl, rfl⟩,
    by decide, by decide⟩

/-- The trigger invariant in its three cases. -/
theorem witness_TriggerLevel :
    TriggerInv (hostAt .arm State.reset) ∧ TriggerInv (hostAt .trigger armed)
    ∧ TriggerInv (hostAt .deassert (State.reset.setBlock { Block.reset with trigOut := true })) := by
  exact ⟨rfl, ⟨rfl, rfl⟩, rfl⟩

/-- A short cycle that times out: no poll iterations and no automatic trigger. -/
def shortCycle : State :=
  { (State.reset.setPhase .arm).setTurns [.host, .host, .host, .host, .host] with
    hostParams := { settleMs := 0, pollIters := 0, autoTrigger := false } }

/-- The actions of that cycle, as 43_host_cycle.md R182 has them. -/
theorem witness_FinishedCycle :
    shortCycle.host.phase = .arm
    ∧ cycleTrace 5 shortCycle = some ([.issue (.wrCtrl 1#32), .delayReturns, .issue (.wrCtrl 0#32), .issue .rdCtrl,
        .report (.warn .frameTimeout)], 0) := by
  refine ⟨rfl, rfl⟩

/-- A cycle with one unsuccessful poll, a frame that completes in its sleep, a poll that finds the flag clear, and the
result reads. -/
def successfulCycle : State :=
  { (fiftyOne.setPhase .arm).setTurns
      [.host, .host, .host, .transaction ⟨0x11#8, 180⟩, .host, .host, .host, .host, .host, .host, .host, .host] with
    hostParams := { settleMs := 0, pollIters := 2, pollSleepMs := 0, autoTrigger := false } }

/-- The actions of that cycle: the loop breaks off and the success tail follows. -/
theorem witness_FinishedCycle_success :
    successfulCycle.host.phase = .arm
    ∧ cycleTrace 12 successfulCycle = some ([.issue (.wrCtrl 1#32), .delayReturns, .issue .rdCtrl, .delayReturns,
        .issue .rdCtrl, .issue (.wrCtrl 0#32), .issue .rdCtrl, .issue .rdValue, .issue .rdDp, .issue .rdSign,
        .report (.warn .malformedField)], 0) := by
  refine ⟨rfl, rfl⟩

/-- A cycle that was reset before its verdict, and what its last two turns do. -/
theorem witness_ResetInACycle :
    let s := { (State.reset.setPhase .verdict).setTurns [.host, .host] with hostParams := { resetTimesOut := true } }
    s.hostParams.resetTimesOut = true ∧ s.armedSinceReset = false ∧ awaitsVerdict s.host.phase = true
    ∧ noStepPerforms armsBlock 2 s
    ∧ cycleTrace 2 s = some ([.issue .rdCtrl, .report (.warn .frameTimeout)], 0) := by
  refine ⟨rfl, rfl, rfl, ⟨?_, ?_⟩, rfl⟩
  · intro i h
    obtain rfl : Instr.rdCtrl = i := Option.some.inj h
    rfl
  · intro t h
    injection h with h
    subst h
    exact ⟨fun _ h => (nomatch h), fun _ _ => trivial⟩

/-- A cycle with one poll that finds the flag set, in which exactly its two delays pass. -/
def timedOutCycle : State :=
  { (State.reset.setPhase .arm).setTurns [.host, .tick 3, .host, .host, .tick 2, .host, .host, .host, .host] with
    hostParams := { settleMs := 3, pollIters := 1, pollSleepMs := 2, autoTrigger := false } }

/-- That cycle takes bit 0 alone, no outside turn arms in it, and it reports the timeout after 3 + 1 * 2 ms. -/
theorem witness_TimedOutCycle :
    timedOutCycle.hostParams.resetTimesOut = false ∧ timedOutCycle.host.phase = .arm
    ∧ (∀ x ∈ timedOutCycle.turns, leavesArmingToHost timedOutCycle.params.tsW x = true)
    ∧ cycleTrace 9 timedOutCycle = some ([.issue (.wrCtrl 1#32), .delayReturns, .issue .rdCtrl, .delayReturns,
        .issue (.wrCtrl 0#32), .issue .rdCtrl, .report (.warn .frameTimeout)], 5) := by
  refine ⟨rfl, rfl, by decide, rfl⟩

/-- A poll and a verdict, with the flag set and, after a RESET, clear. -/
theorem witness_BitZeroAlone :
    ∀ q ∈ [HostPhase.poll 27, .verdict], ∀ s ∈ [armed, State.reset],
      (hostAt q s).hostParams.resetTimesOut = false ∧ (hostAt q s).turns = .host :: [] ∧ (hostAt q s).host.phase = q := by
  decide

/-- The flag set with an arm behind it. -/
theorem witness_FlagArmed :
    armed.block.isReading = true ∧ armed.armedSinceReset = true
    ∧ (afterStep (incoming 0x00#8 0 armed) fun t => t.block.isReading) = some true := by decide

theorem witness_CycleWithoutEdges : ∀ x ∈ shortCycle.turns, keepsFlag shortCycle.params.tsW x = true := by decide

/-- A turn that uses up an action, one in an unexpired delay, and one that lets time pass. -/
theorem witness_CycleUsesUpItsActions :
    (hostAt (.poll 2) armed).host.phase ≠ .idle
    ∧ (hostAt (.poll 2) armed).turns.head? = some .host ∧ delayLeft (hostAt (.poll 2) armed).host.phase = 0
    ∧ ((hostAt (.settle 4) armed).setTurns [.tick 3]).turns.head? = some (.tick 3) := by decide

/-- A step whose action is a report, and one whose action is not. -/
theorem witness_OneOutput :
    actionsNow (hostAt .timedOut armed) = [.report (.warn .frameTimeout)]
    ∧ actionsNow (hostAt .verdict armed) = [.issue .rdCtrl]
    ∧ (hostAt .timedOut armed).turns = .host :: [] ∧ (hostAt .timedOut armed).host.phase = .timedOut
    ∧ (afterStep (hostAt .timedOut armed) fun t => t.host.outputs) = some [.warn .frameTimeout]
    ∧ (afterStep (hostAt .verdict armed) fun t => t.host.outputs) = some [] := by
  refine ⟨rfl, rfl, rfl, rfl, ?_, ?_⟩ <;> decide

theorem witness_CallsDoNotOverlap :
    (State.reset.setTurns [.runOnce]).turns = .runOnce :: [] ∧ (State.reset.setTurns [.runOnce]).host.phase = .idle
    ∧ ((State.reset.setPhase .verdict).setTurns [.runOnce]).host.phase ≠ .idle
    ∧ (hostAt .idle armed).host.phase = .idle ∧ (hostAt .idle armed).turns.head? ≠ some .runOnce
    ∧ State.reset.turns = [] := by decide

/-- Nine of the ten milliseconds have passed. -/
theorem witness_SettleDelay :
    let s := (State.reset.setPhase (.settle 10)).setTurns [.tick 9, .host]
    s.host.phase = .settle 10 ∧ ticksIn (s.turns.take 2) < 10 ∧ ∃ t, runSteps 2 s = .next t := by
  refine ⟨rfl, by decide, _, rfl⟩

theorem witness_HostTransactions :
    [Instr.rdCtrl, .rdValue, .rdDp, .rdSign, .wrCtrl 3#32, .wrValue 3#32, .wrDp 3#32, .wrSign 3#32].all
      (fun i => agentOf i = some .host) = true := by decide

end Sys2Proof.Tests
end

/-! Proofs of the family "state" (10_state.md): the block's invariant, the mark `REFUSED`, and who writes the flag and
the other elements of the block. -/

namespace Sys2Proof.Machine

variable {s t u : State} {i : Instr} {p : BlockParams} {c d : Bool} {T : Nat} {k : Block}

/-! ### What one step can do, for the claims about the block -/

/-- All that a step can do to the block, the bookkeeping of arms and the read data, by the transaction it performs:
nothing (or a read), a RESET, an edge, or a write of CTRL. -/
theorem step_block_cases (e : step s = .next t) :
    (t.block = s.block ∧ t.armedSinceReset = s.armedSinceReset ∧
      (t.rdata = s.rdata ∨ stepInstr s = some .rdCtrl ∨ stepInstr s = some .rdValue ∨ stepInstr s = some .rdDp
        ∨ stepInstr s = some .rdSign))
    ∨ (stepInstr s = some .reset ∧ t.block = Block.reset ∧ t.armedSinceReset = false ∧ t.rdata = s.rdata)
    ∨ (∃ c d T, stepInstr s = some (.edge c d T) ∧ (gateOpen s.params c s.block = false ∨ s.block.bc.toNat ≤ 51)
      ∧ t.block = edgeBlock s.params c d T s.block ∧ t.armedSinceReset = s.armedSinceReset ∧ t.rdata = s.rdata)
    ∨ (∃ v, stepInstr s = some (.wrCtrl v) ∧ t.block = writeReg .ctrl v s.block
      ∧ t.armedSinceReset = armedAfter v s.armedSinceReset ∧ t.rdata = s.rdata) := by
  rcases step_block e with ⟨-, hb, hr, ha⟩ |
    ⟨i, s', u, hi, hb', hp', hr', -, hx, hb, hr, -, ha', ha⟩
  · exact .inl ⟨hb, ha, .inl hr⟩
  rw [hi, hb, hr, ha, ← hb', ← hp', ← hr', ← ha']
  rcases exec_cases i s' with h | ⟨rfl, h⟩ | ⟨c, d, T, rfl, hc, h⟩ | ⟨c, d, T, rfl, -, -, h⟩ | ⟨hread, v, h⟩ |
    ⟨v, rfl, h⟩ <;> cases h.symm.trans hx
  · exact .inl ⟨rfl, rfl, .inl rfl⟩
  · exact .inr (.inl ⟨rfl, rfl, rfl, rfl⟩)
  · exact .inr (.inr (.inl ⟨c, d, T, rfl, hc, rfl, rfl, rfl⟩))
  · exact .inl ⟨rfl, rfl, .inl rfl⟩
  · exact .inl ⟨rfl, rfl, .inr (by simpa using hread)⟩
  · exact .inr (.inr (.inr ⟨v, rfl, rfl, rfl, rfl⟩))

/-- The host's turn touches the block's parameters and `REFUSED` only through the transaction it issues. -/
theorem hostTurn_via_exec (e : hostTurn s = .next t) :
    ∃ u, (u = s ∨ ∃ i, exec i s = .next u) ∧ t.params = u.params ∧ t.refused = u.refused := by
  rcases hostTurn_cases s with ⟨-, h⟩ | ⟨i, u, -, hx, h⟩ | ⟨-, h⟩ | ⟨o, -, h⟩ <;> cases h.symm.trans e
  · exact ⟨s, .inl rfl, rfl, rfl⟩
  · exact ⟨u, .inr ⟨i, hx⟩, rfl, rfl⟩
  · exact ⟨s, .inl rfl, rfl, rfl⟩
  · exact ⟨s, .inl rfl, rfl, rfl⟩

/-- No step changes the block's parameters (20_memory.md R65). -/
theorem step_params (e : step s = .next t) : t.params = s.params := by
  rcases step_cases s with ⟨-, h⟩ | ⟨x, rest, i, -, -, h⟩ | ⟨x, rest, w, -, -, h⟩ | ⟨rest, -, h⟩ |
    ⟨rest, -, h⟩ | ⟨ms, rest, -, h⟩ <;> rw [h] at e
  · cases e; rfl
  · exact (exec_keeps e).1
  · cases e; rfl
  · obtain ⟨u, rfl | ⟨i, hx⟩, hp, -⟩ := hostTurn_via_exec e
    · exact hp
    · exact hp.trans (exec_keeps hx).1
  · cases e; simp
  · cases e; rfl

/-! ### The block's invariant (10_state.md R21, R23, R24, R25, R28, R35) -/

/-- The reset block satisfies the invariant, whatever the parameters. -/
theorem blockInv_reset (p : BlockParams) : BlockInv p Block.reset where
  bc_le := by decide
  nib_above j _ _ := nibAt_nibClear j
  nib_current := by decide
  prevTs_lt := Nat.two_pow_pos _
  mValue_le := by decide
  slotValue_eq := by simp [Block.reset]
  slotDp_eq := rfl
  slotPos_eq := rfl
  pend_clear := rfl

/-- A write of CTRL touches nothing the invariant speaks of. -/
theorem BlockInv.writeCtrl (h : BlockInv p k) (v : Word) : BlockInv p (writeReg .ctrl v k) := { h with }

theorem storedTs_lt (p : BlockParams) (T : Nat) : storedTs p T < 2 ^ p.tsW := Nat.mod_lt _ (Nat.two_pow_pos _)

/-- The value field fits `M_VALUE` (R25). -/
theorem mValue_frameValue (v : Nibbles) : (BitVec.ofNat 21 (frameValue v)).toNat = frameValue v := by
  have := frameValue_le v
  rw [BitVec.toNat_ofNat]; omega

/-- What a publish puts in the slot is the Measurement's value cut to `SLOT_VALUE_W` (R28). -/
theorem slotValue_frameValue (w : Nat) (v : Nibbles) :
    (BitVec.ofNat 32 (frameValue v % 2 ^ w)).toNat = (BitVec.ofNat 21 (frameValue v)).toNat % 2 ^ w := by
  have hle := frameValue_le v
  have hmod := Nat.mod_le (frameValue v) (2 ^ w)
  rw [mValue_frameValue, BitVec.toNat_ofNat, Nat.mod_eq_of_lt (by omega)]

/-- Shifting a bit into a nibble that holds `r` bits at its top leaves `r + 1` of them there (R23). -/
theorem shiftIn_low_clear (b : Bool) (n : Nibble) {r : Nat} (hr : r < 3) (h : n.toNat % 2 ^ (4 - r) = 0) :
    (shiftIn b n).toNat % 2 ^ (3 - r) = 0 := by
  rw [shiftIn_toNat]
  interval_cases r <;> cases b <;> simp at h ⊢ <;> omega

/-- An empty buffer satisfies the buffer clauses, whatever the rest of the block holds. -/
theorem BlockInv.clearBuffer (h : BlockInv p k) : BlockInv p { k with bc := 0#6, nib := nibClear } :=
  { h with
    bc_le := by simp
    nib_above := fun j _ _ => nibAt_nibClear j
    nib_current := by rw [nibAt_nibClear]; rfl }

/-- Shifting in a bit that does not end the frame: it goes on top of the current nibble, and where it fills that nibble
the next one is still empty. -/
theorem BlockInv.shift (h : BlockInv p k) (hb : k.bc.toNat ≤ 50) (b : Bool) (T : Nat) :
    BlockInv p { k with
      bc := k.bc + 1#6
      nib := nibSet k.nib (k.bc.toNat / 4) (shiftIn b (nibAt k.nib (k.bc.toNat / 4)))
      prevTs := storedTs p T
      pend := false } := by
  have hbc : (k.bc + 1#6).toNat = k.bc.toNat + 1 := by rw [BitVec.toNat_add]; simp; omega
  have hv : ∀ x j, nibAt (nibSet k.nib (k.bc.toNat / 4) x) j = _ := fun x j => nibAt_nibSet _ _ j x (by omega)
  refine { h with bc_le := ?_, nib_above := ?_, nib_current := ?_, prevTs_lt := storedTs_lt p T, pend_clear := rfl } <;>
    rw [hbc]
  · omega
  · intro j hj hlt
    rw [hv, if_neg (by omega), h.nib_above j hj (by omega)]
  · rw [hv]
    by_cases hr : k.bc.toNat % 4 < 3
    · rw [if_pos (by omega), show 4 - (k.bc.toNat + 1) % 4 = 3 - k.bc.toNat % 4 by omega]
      exact shiftIn_low_clear b _ hr h.nib_current
    · rw [if_neg (by omega), h.nib_above _ (by omega) (by omega)]
      simp

/-- An edge keeps the invariant: gated off, taking a bit into an emptied buffer after a gap, taking a bit on top of the
others, or completing the frame. -/
theorem BlockInv.edge (h : BlockInv p k) (c d : Bool) (T : Nat) : BlockInv p (edgeBlock p c d T k) := by
  rcases edgeBlock_cases p c d T k h.bc_le with ⟨-, e⟩ | ⟨-, -, e⟩ | ⟨-, -, hb, e⟩ | ⟨-, -, -, e⟩ <;> rw [e]
  · exact { h with pend_clear := rfl }
  · simpa using h.clearBuffer.shift (by simp) (dataBit p d) T
  · exact h.shift hb (dataBit p d) T
  · exact { h.clearBuffer with
      prevTs_lt := storedTs_lt p T
      mValue_le := by rw [mValue_frameValue]; exact frameValue_le _
      slotValue_eq := slotValue_frameValue _ _
      slotDp_eq := rfl
      slotPos_eq := rfl
      pend_clear := rfl }

/-- Settles O32: the power-on block is the reset block. -/
theorem blockInvAtReset : Obligations.BlockInvAtReset := blockInv_reset _

/-- Settles O33, by the four things a step can do to the block. -/
theorem stepKeepsBlockInv : Obligations.StepKeepsBlockInv := by
  intro s t h e
  rw [step_params e]
  rcases step_block_cases e with ⟨hb, -⟩ | ⟨-, hb, -⟩ | ⟨c, d, T, -, -, hb, -⟩ | ⟨v, -, hb, -⟩ <;> rw [hb]
  · exact h
  · exact blockInv_reset _
  · exact h.edge c d T
  · exact h.writeCtrl v

/-! ### The mark `REFUSED` (10_state.md R43) -/

/-- No transaction touches the mark in a state that a run can reach: the one that would is an edge with `BC > 51`. -/
theorem exec_refused (hbc : s.block.bc.toNat ≤ 51) (e : exec i s = .next t) : t.refused = s.refused := by
  rcases exec_cases i s with h | ⟨-, h⟩ | ⟨_, _, _, -, -, h⟩ | ⟨_, _, _, -, -, hgt, -⟩ | ⟨-, _, h⟩ | ⟨_, -, h⟩
  case inr.inr.inr.inl => omega
  all_goals cases h.symm.trans e; rfl

theorem hostTurn_refused (hbc : s.block.bc.toNat ≤ 51) (e : hostTurn s = .next t) : t.refused = s.refused := by
  obtain ⟨u, rfl | ⟨i, hx⟩, -, hr⟩ := hostTurn_via_exec e
  · exact hr
  · exact hr.trans (exec_refused hbc hx)

/-- In a state that a run can reach, a step raises the mark at a reserved word and otherwise leaves it alone. -/
theorem step_refused_cases (hbc : s.block.bc.toNat ≤ 51) (e : step s = .next t) :
    (t.refused = true ∧ ∃ x rest w, s.turns = .transaction x :: rest ∧ decode s.params.tsW x = .reserved w)
    ∨ (t.refused = s.refused ∧
      ¬ ∃ x rest w, s.turns = .transaction x :: rest ∧ decode s.params.tsW x = .reserved w) := by
  rcases step_cases s with ⟨hn, h⟩ | ⟨x, rest, i, hn, hd, h⟩ | ⟨x, rest, w, hn, hd, h⟩ | ⟨rest, hn, h⟩ |
    ⟨rest, hn, h⟩ | ⟨ms, rest, hn, h⟩ <;> rw [h] at e
  · cases e; exact .inr ⟨rfl, by simp [hn]⟩
  · exact .inr ⟨exec_refused (s := s.setTurns rest) hbc e, by simp [hn, hd]⟩
  · cases e; exact .inl ⟨rfl, x, rest, w, hn, hd⟩
  · exact .inr ⟨hostTurn_refused (s := s.setTurns rest) hbc e, by simp [hn]⟩
  · cases e; exact .inr ⟨by simp, by simp [hn]⟩
  · cases e; exact .inr ⟨rfl, by simp [hn]⟩

/-- Settles O7: the invariant keeps `BC` in range, so only a reserved word raises the mark. -/
theorem refusedIsStickyAndOnlyForReservedWords : Obligations.RefusedIsStickyAndOnlyForReservedWords := by
  refine ⟨rfl, fun s t h e => ?_⟩
  rcases step_refused_cases h.bc_le e with ⟨ht, hw⟩ | ⟨ht, hw⟩
  · simp only [ht, true_iff]; exact .inr hw
  · rw [ht, or_iff_left hw]

/-! ### The writers of the block's elements (10_state.md R34, R44) -/

/-- Settles O35, by the four things a step can do to the block. -/
theorem onlyTheNamedWritersWrite : Obligations.OnlyTheNamedWritersWrite := by
  intro s t e
  rcases step_block_cases e with ⟨hb, -, hr⟩ | ⟨hi, -, -, hr⟩ | ⟨c, d, T, hi, -, hb, -, hr⟩ |
    ⟨v, hi, hb, -, hr⟩
  · refine ⟨by simp [hb], by simp [hb], by simp [hb], fun hne => hr.resolve_left hne⟩
  · exact ⟨fun _ => .inr hi, fun _ => .inr hi, fun _ => .inr (.inr hi), fun hne => absurd hr hne⟩
  · have htrig : t.block.trigOut = s.block.trigOut := by rw [hb, edgeBlock_trigOut]
    exact ⟨fun _ => .inl ⟨c, d, T, hi⟩, fun hne => absurd htrig hne, fun _ => .inl ⟨c, d, T, hi⟩,
      fun hne => absurd hr hne⟩
  · exact ⟨by simp [hb, writeReg], fun _ => .inl ⟨v, hi⟩, fun _ => .inr (.inl ⟨v, hi⟩), fun hne => absurd hr hne⟩

/-- An edge never arms the block. -/
theorem edgeBlock_unarmed (h : k.isReading = false) : (edgeBlock p c d T k).isReading = false := by
  rw [edgeBlock_closed (gateOpen_false_iff.2 (.inl h))]
  exact h

/-- An edge that clears the flag is the 52nd bit of a frame, within the window. -/
theorem completes_of_edgeBlock_clears (hc : gateOpen p c k = false ∨ k.bc.toNat ≤ 51) (hr : k.isReading = true)
    (hr' : (edgeBlock p c d T k).isReading = false) :
    gateOpen p c k = true ∧ gapExceeded p T k = false ∧ k.bc.toNat = 51 := by
  have hkeep : (edgeBlock p c d T k).isReading ≠ k.isReading := by simp [hr, hr']
  rcases hc with hg | hb
  · exact absurd (by rw [edgeBlock_closed hg]) hkeep
  rcases edgeBlock_cases p c d T k hb with ⟨-, e⟩ | ⟨-, -, e⟩ | ⟨-, -, -, e⟩ | ⟨hg, hgap, h51, -⟩
  case inr.inr.inr => exact ⟨hg, hgap, h51⟩
  all_goals exact absurd (by rw [e]) hkeep

/-- Settles O36: a write of CTRL sets the flag only through its bit 0 and never clears it, an edge never sets it and
clears it only where it completes a frame. -/
theorem flagIsSetByArmAndClearedByPublish : Obligations.FlagIsSetByArmAndClearedByPublish := by
  intro s t e
  rcases step_block_cases e with ⟨hb, -⟩ | ⟨hi, hb, -⟩ | ⟨c, d, T, hi, hc, hb, -⟩ | ⟨v, hi, hb, -⟩ <;> rw [hb]
  · exact ⟨fun h h' => by simp [h] at h', fun h h' => by simp [h] at h'⟩
  · exact ⟨fun _ h' => (nomatch h'), fun _ _ => .inl hi⟩
  · refine ⟨fun h h' => by simp [edgeBlock_unarmed h] at h', fun h h' => .inr ⟨c, d, T, hi, ?_⟩⟩
    obtain ⟨hg, hgap, h51⟩ := completes_of_edgeBlock_clears hc h h'
    rw [edgeBlock_complete hg hgap h51]
    exact ⟨rfl, slotValue_frameValue _ _, rfl, rfl⟩
  · exact ⟨fun h h' => ⟨v, hi, by simpa [writeReg, armedAfter, h, wdataArm] using h'⟩,
      fun h h' => by simp [writeReg, armedAfter, h] at h'⟩

/-- Settles O57: whatever sets the flag sets the bookkeeping bit too, and RESET clears both. -/
theorem stepKeepsFlagArmed : Obligations.StepKeepsFlagArmed := by
  refine ⟨fun h => (nomatch h), fun s t h e => ?_⟩
  rcases step_block_cases e with ⟨hb, ha, -⟩ | ⟨-, hb, -, -⟩ | ⟨c, d, T, -, -, hb, ha, -⟩ | ⟨v, -, hb, ha, -⟩ <;>
    rw [hb]
  · rwa [ha]
  · exact fun h' => nomatch h'
  · intro h'
    rw [ha]
    refine h (Bool.eq_true_of_not_eq_false fun hf => ?_)
    simp [edgeBlock_unarmed hf] at h'
  · rw [ha]
    simp only [writeReg, armedAfter, Bool.or_eq_true]
    exact Or.imp_right h

end Sys2Proof.Machine


/-! Proofs of the family "memory" (20_memory.md): one step runs one transaction whole (R58), slot and flag change
together (R59) and the slot stays while the block is not armed (R61), reads leave no trace (R55), the parameters stay
(R65). -/

namespace Sys2Proof.Machine

variable {s t : State} {i : Instr} {p : BlockParams} {c d : Bool} {T : Nat} {k : Block}

/-! ### Slot and flag in one step (20_memory.md R59) -/

/-- An edge that does not complete a frame leaves flag, Measurement and slot alone. -/
theorem edgeBlock_sameResults_or_completes (hc : gateOpen p c k = false ∨ k.bc.toNat ≤ 51) :
    SameResults k (edgeBlock p c d T k)
    ∨ (gateOpen p c k = true ∧ gapExceeded p T k = false ∧ k.bc.toNat = 51) := by
  rcases hc with hg | hb
  · exact .inl (by rw [edgeBlock_closed hg]; simp [SameResults])
  rcases edgeBlock_cases p c d T k hb with ⟨-, e⟩ | ⟨-, -, e⟩ | ⟨-, -, -, e⟩ | ⟨hg, hgap, h51, -⟩
  case inr.inr.inr => exact .inr ⟨hg, hgap, h51⟩
  all_goals exact .inl (by rw [e]; simp [SameResults])

/-- Settles O37: of the things a step other than a RESET can do to the block, only the edge that completes a frame
touches the slot or clears the flag, and it does both. -/
theorem slotAndFlagChangeTogether : Obligations.SlotAndFlagChangeTogether := by
  intro s t e hreset
  rcases step_block_cases e with ⟨hb, -⟩ | ⟨hi, -⟩ | ⟨c, d, T, -, hc, hb, -⟩ | ⟨v, -, hb, -⟩
  · exact ⟨by simp [hb], fun h h' => by simp [hb, h] at h'⟩
  · exact absurd hi hreset
  · rw [hb]
    rcases edgeBlock_sameResults_or_completes (d := d) (T := T) hc with
      ⟨hflag, -, -, -, -, hval, hdp, hpos⟩ | ⟨hg, hgap, h51⟩
    · exact ⟨by simp [hval, hdp, hpos], fun h h' => by simp [hflag, h] at h'⟩
    · rw [edgeBlock_complete hg hgap h51]
      exact ⟨fun _ => ⟨(gateOpen_iff.1 hg).1, rfl⟩,
        fun _ _ => ⟨h51, rfl, slotValue_frameValue _ _, rfl, rfl, rfl, rfl⟩⟩
  · exact ⟨by simp [hb, writeReg], fun h h' => by simp [hb, writeReg, armedAfter, h] at h'⟩

/-! ### The slot while the block is not armed (20_memory.md R61) -/

/-- A step that neither arms nor resets an unarmed block touches nothing of it but `PEND` and `TRIG_OUT`. -/
theorem step_unarmed_block (hr : s.block.isReading = false)
    (hP : ∀ i, stepInstr s = some i → armsOrResets i = false) (e : step s = .next t) :
    ∃ pd tr, t.block = { s.block with pend := pd, trigOut := tr } := by
  rcases step_block_cases e with ⟨hb, -⟩ | ⟨hi, -⟩ | ⟨c, d, T, -, -, hb, -⟩ | ⟨v, hi, hb, -⟩
  · exact ⟨s.block.pend, s.block.trigOut, hb⟩
  · exact nomatch hP _ hi
  · exact ⟨false, s.block.trigOut, hb.trans (edgeBlock_closed (gateOpen_false_iff.2 (.inl hr)))⟩
  · have hv : wdataArm v = false := by simpa [armsOrResets, armsBlock] using hP _ hi
    exact ⟨s.block.pend, wdataTrig v, by simp [hb, writeReg, armedAfter, hv]⟩

/-- A run of `n + 1` steps is its first step and a run of `n`. -/
theorem runSteps_succ_split {n : Nat} (h : runSteps (n + 1) s = .next t) :
    ∃ u, step s = .next u ∧ runSteps n u = .next t := by
  cases hs : step s with
  | next u => exact ⟨u, rfl, by rwa [runSteps_succ hs] at h⟩
  | fault r => cases r
  | refused r => simp [runSteps, hs] at h

/-- The same through any number of steps: the block stays unarmed, so each of them finds it so. -/
theorem runSteps_unarmed_block (n : Nat) : ∀ {s : State}, s.block.isReading = false →
    noStepPerforms armsOrResets n s → runSteps n s = .next t →
    ∃ pd tr, t.block = { s.block with pend := pd, trigOut := tr } := by
  induction n with
  | zero =>
    intro s _ _ h
    cases h
    exact ⟨_, _, rfl⟩
  | succ n ih =>
    intro s hr ⟨hP, hrest⟩ h
    obtain ⟨u, hu, hrun⟩ := runSteps_succ_split h
    obtain ⟨pd, tr, hb⟩ := step_unarmed_block hr hP hu
    obtain ⟨pd', tr', hb'⟩ := ih (by rw [hb]; exact hr) (hrest u hu) hrun
    exact ⟨pd', tr', by rw [hb', hb]⟩

/-- Settles O38: flag, slot and Measurement are not among what such a run touches. -/
theorem unarmedBlockKeepsItsSlot : Obligations.UnarmedBlockKeepsItsSlot := by
  intro n s t hr hP h
  obtain ⟨pd, tr, hb⟩ := runSteps_unarmed_block n hr hP h
  rw [hb]
  exact ⟨hr, rfl, rfl, rfl, rfl, rfl, rfl⟩

/-! ### One step, one transaction (20_memory.md R58) -/

/-- A step on a transaction from outside is that transaction on the machine without the turn. -/
theorem step_transaction {x : Transaction} {rest : List Turn} (ht : s.turns = .transaction x :: rest)
    (hd : decode s.params.tsW x = .instr i) : step s = exec i (s.setTurns rest) :=
  (step_cons ht).trans (runTransaction_instr hd)

/-- A step on the host's turn is the transaction it issues, and then the move of its control point. -/
theorem step_host_issue {rest : List Turn} (ht : s.turns = .host :: rest)
    (ha : nextAction s.hostParams s.host.phase = some (.issue i)) :
    ∃ u, exec i (s.setTurns rest) = .next u ∧ step s = .next (advancePhase u) := by
  have hs : step s = hostTurn (s.setTurns rest) := step_cons ht
  have ha' : nextAction (s.setTurns rest).hostParams (s.setTurns rest).host.phase = some (.issue i) := ha
  rcases hostTurn_cases (s.setTurns rest) with ⟨hn, -⟩ | ⟨j, u, hn, hx, h⟩ | ⟨hn, -⟩ | ⟨o, hn, -⟩ <;>
    cases ha'.symm.trans hn
  exact ⟨u, hx, hs.trans h⟩

/-- Settles O5, by the two kinds of turn that run a transaction; `withFetchWord` puts one of the first kind at the
head. -/
theorem stepRunsDecodedTransaction : Obligations.StepRunsDecodedTransaction := by
  refine ⟨fun s x rest i ht hd => step_transaction ht hd, fun s nbits w i hd => ?_, fun s rest i ht ha => ?_⟩
  · exact step_transaction (s := s.withFetchWord nbits w) rfl hd
  · obtain ⟨u, hx, h⟩ := step_host_issue ht ha
    exact ⟨u, _, hx, h⟩

/-! ### Reads and writes of CTRL (20_memory.md R55) -/

/-- A read puts a register's word into the read data and does nothing else. -/
theorem exec_read (hi : i = .rdCtrl ∨ i = .rdValue ∨ i = .rdDp ∨ i = .rdSign) :
    ∃ r, ∀ s : State, exec i s = .next (s.setRdata (readReg r s.block)) := by
  rcases hi with rfl | rfl | rfl | rfl
  · exact ⟨.ctrl, exec_rdCtrl⟩
  · exact ⟨.resultValue, exec_rdValue⟩
  · exact ⟨.resultDp, exec_rdDp⟩
  · exact ⟨.resultSign, exec_rdSign⟩

/-- Write-1-to-set twice is once. -/
@[simp] theorem armedAfter_armedAfter (v : Word) (b : Bool) : armedAfter v (armedAfter v b) = armedAfter v b := by
  simp [armedAfter]

/-- The second of two equal writes finds the register as it leaves it. -/
@[simp] theorem writeReg_writeReg (r : Reg) (v : Word) (k : Block) :
    writeReg r v (writeReg r v k) = writeReg r v k := by
  cases r <;> simp [writeReg]

/-- Settles O31: a read of the register already in the read data, a write of what is already written. -/
theorem readsAreRepeatableAndWritesIdempotent : Obligations.ReadsAreRepeatableAndWritesIdempotent := by
  refine ⟨fun i s t u hi ht hu => ?_, fun v s t ht => ?_⟩
  · obtain ⟨r, hread⟩ := exec_read hi
    cases (hread s).symm.trans ht
    cases (hread _).symm.trans hu
    exact ⟨rfl, rfl⟩
  · cases (exec_wrCtrl s v).symm.trans ht
    rw [exec_wrCtrl, State.setArmed_block, State.setBlock_block, writeReg_writeReg, State.setArmed_armedSinceReset,
      armedAfter_armedAfter]
    rfl

/-! ### The parameters (20_memory.md R65) -/

/-- Settles O34: `TS_W`, on which decoding depends, is one of the block's parameters. -/
theorem parametersNeverChange : Obligations.ParametersNeverChange :=
  fun _ _ e => ⟨step_params e, step_hostParams e, by rw [step_params e]⟩

end Sys2Proof.Machine

/-! Proofs of the family "encoding" (30_encoding.md): the decoder inverts the encoder and is the opcode map (R70 to R77),
a reserved word only refuses (R78), the pseudo-transactions (R87). -/

namespace Sys2Proof

/-! ### A transaction with another operand (30_encoding.md R70) -/

/-- The transaction with the number `n` on its operand lines, of which EDGE takes the low `TS_W` bits, WR.* the low 32
bits and the others nothing. -/
def Instr.withOperand (tsW n : Nat) : Instr → Instr
  | .nop => .nop
  | .reset => .reset
  | .edge c d _ => .edge c d (n % 2 ^ tsW)
  | .rdCtrl => .rdCtrl
  | .rdValue => .rdValue
  | .rdDp => .rdDp
  | .rdSign => .rdSign
  | .wrCtrl _ => .wrCtrl (BitVec.ofNat 32 n)
  | .wrValue _ => .wrValue (BitVec.ofNat 32 n)
  | .wrDp _ => .wrDp (BitVec.ofNat 32 n)
  | .wrSign _ => .wrSign (BitVec.ofNat 32 n)

variable {tsW n : Nat} {w : Code} {i : Instr}

@[simp] theorem mnemonicOf_withOperand : mnemonicOf (i.withOperand tsW n) = mnemonicOf i := by cases i <;> rfl

@[simp] theorem encode_withOperand_word : (encode (i.withOperand tsW n)).word = (encode i).word := by cases i <;> rfl

@[simp] theorem withOperand_wf : (i.withOperand tsW n).wf tsW = true := by
  cases i with
  | edge c d T => exact decide_eq_true (Nat.mod_lt _ (Nat.two_pow_pos tsW))
  | _ => rfl

/-- A well-formed transaction's own operand gives it back: nothing of it is cut off. -/
theorem withOperand_encode_operand (h : i.wf tsW = true) : i.withOperand tsW (encode i).operand = i := by
  cases i with
  | edge c d T => exact congrArg (Instr.edge c d) (Nat.mod_eq_of_lt (of_decide_eq_true h))
  | wrCtrl v | wrValue v | wrDp v | wrSign v => simp [Instr.withOperand, encode]
  | _ => rfl

/-! ### The words of the two formats (30_encoding.md R71) -/

/-- A word with `H = 0` is of format E. -/
theorem eq_eventWord : ∀ {w : Code}, w.getLsbD 7 = false → w = eventWord (w.extractLsb 6 4) (w.extractLsb 3 0) := by
  decide

/-- A word with `H = 1` and four zero bits is of format B, and its index names a register. -/
theorem eq_busWord : ∀ {w : Code}, w.getLsbD 7 = true → w.extractLsb 5 2 = 0#4 →
    w = busWord (w.getLsbD 6) (regOfIndex (w.extractLsb 1 0)) := by
  decide

/-- The EDGE row by its fields: class 001 of format E, and its two zero bits. -/
theorem edgeRow_of_fields : ∀ {w : Code}, w.getLsbD 7 = false → w.extractLsb 6 4 = 0b001#3 →
    w.extractLsb 3 2 = 0b00#2 → w &&& 0xFC#8 = 0x10#8 := by
  decide

/-- A word of the EDGE row is an EDGE word, by its two low bits. -/
theorem eq_edgeWord : ∀ {w : Code}, w &&& 0xFC#8 = 0x10#8 →
    w = eventWord 0b001#3 (0b00#2 ++ BitVec.ofBool (w.getLsbD 1) ++ BitVec.ofBool (w.getLsbD 0)) := by
  decide

@[simp] theorem encode_readOf_word (r : Reg) : (encode (readOf r)).word = busWord false r := by cases r <;> rfl

@[simp] theorem encode_writeOf_word (v : Word) (r : Reg) : (encode (writeOf v r)).word = busWord true r := by
  cases r <;> rfl

/-! ### Decoding (30_encoding.md R77) -/

/-- The word of a transaction decodes to it, with what stands on the operand lines. -/
theorem decode_encode_word (tsW n : Nat) (i : Instr) :
    decode tsW ⟨(encode i).word, n⟩ = .instr (i.withOperand tsW n) := by
  cases i with
  | nop => simp [decode, encode, eventWord, Instr.withOperand]
  | reset => simp [decode, encode, eventWord, Instr.withOperand]
  | edge c d T => exact decode_edgeWord tsW n c d
  | rdCtrl => exact decode_busWord tsW n false .ctrl
  | rdValue => exact decode_busWord tsW n false .resultValue
  | rdDp => exact decode_busWord tsW n false .resultDp
  | rdSign => exact decode_busWord tsW n false .resultSign
  | wrCtrl v => exact decode_busWord tsW n true .ctrl
  | wrValue v => exact decode_busWord tsW n true .resultValue
  | wrDp v => exact decode_busWord tsW n true .resultDp
  | wrSign v => exact decode_busWord tsW n true .resultSign

/-- Branch by branch of the procedure: a word is the word of some transaction, or it is reserved. -/
theorem encode_word_or_reserved (tsW : Nat) (x : Transaction) :
    (∃ i, (encode i).word = x.word) ∨ decode tsW x = .reserved x.word := by
  cases hH : x.word.getLsbD 7 with
  | true =>
    by_cases hz : x.word.extractLsb 5 2 = 0#4
    · rw [eq_busWord hH hz]
      cases x.word.getLsbD 6
      · exact .inl ⟨readOf _, encode_readOf_word _⟩
      · exact .inl ⟨writeOf 0#32 _, encode_writeOf_word _ _⟩
    · exact .inr (by simp [decode, hH, hz])
  | false =>
    by_cases h0 : x.word.extractLsb 6 4 = 0b000#3
    · by_cases hn : x.word.extractLsb 3 0 = 0b0000#4
      · exact .inl ⟨.nop, by rw [eq_eventWord hH, h0, hn]; rfl⟩
      by_cases hr : x.word.extractLsb 3 0 = 0b0001#4
      · exact .inl ⟨.reset, by rw [eq_eventWord hH, h0, hr]; rfl⟩
      · exact .inr (by simp only [decode, hH, h0, hn, hr, Bool.false_eq_true, reduceIte])
    by_cases h1 : x.word.extractLsb 6 4 = 0b001#3
    · by_cases hz : x.word.extractLsb 3 2 = 0b00#2
      · exact .inl ⟨.edge (x.word.getLsbD 1) (x.word.getLsbD 0) 0, (eq_edgeWord (edgeRow_of_fields hH h1 hz)).symm⟩
      · exact .inr (by simp +decide only [decode, hH, h1, hz, ne_eq, not_false_eq_true, reduceIte])
    · exact .inr (by simp only [decode, hH, h0, h1, Bool.false_eq_true, reduceIte])

/-- All that the decoder can answer. -/
theorem decode_cases (tsW : Nat) (x : Transaction) :
    (∃ i, (encode i).word = x.word ∧ decode tsW x = .instr (i.withOperand tsW x.operand))
    ∨ ((∀ i, (encode i).word ≠ x.word) ∧ decode tsW x = .reserved x.word) := by
  by_cases h : ∃ i, (encode i).word = x.word
  · obtain ⟨i, hi⟩ := h
    refine .inl ⟨i, hi, ?_⟩
    rw [← decode_encode_word, hi]
  · exact .inr ⟨not_exists.1 h, (encode_word_or_reserved tsW x).resolve_left h⟩

/-- A word is reserved when it is the word of no transaction, whatever the operand and the timestamp's width. -/
theorem decode_eq_reserved_iff : decode tsW ⟨w, n⟩ = .reserved w ↔ ∀ i, (encode i).word ≠ w := by
  rcases decode_cases tsW ⟨w, n⟩ with ⟨i, hw, hd⟩ | ⟨hw, hd⟩
  · simp only [hd, reduceCtorEq, false_iff, not_forall, not_not]
    exact ⟨i, hw⟩
  · exact iff_of_true hd hw

/-! ### The opcode map (30_encoding.md R76) -/

/-- The encoded word of a transaction lies in its row, one lemma per transaction. -/
theorem matchesRow_encode (i : Instr) : matchesRow (encode i).word i = true := by
  cases i with
  | nop => exact Laws.EncodedWordInRow.nop
  | reset => exact Laws.EncodedWordInRow.reset
  | edge c d T => exact Laws.EncodedWordInRow.edge c d T
  | rdCtrl => exact Laws.EncodedWordInRow.rdCtrl
  | rdValue => exact Laws.EncodedWordInRow.rdValue
  | rdDp => exact Laws.EncodedWordInRow.rdDp
  | rdSign => exact Laws.EncodedWordInRow.rdSign
  | wrCtrl v => exact Laws.EncodedWordInRow.wrCtrl v
  | wrValue v => exact Laws.EncodedWordInRow.wrValue v
  | wrDp v => exact Laws.EncodedWordInRow.wrDp v
  | wrSign v => exact Laws.EncodedWordInRow.wrSign v

/-- The mask of a row of one word hides nothing. -/
theorem and_fullMask (w : Code) : w &&& 0xFF#8 = w := BitVec.and_allOnes

/-- Every row but EDGE's holds one word. -/
theorem opcodeRow_cases (i : Instr) :
    (∃ c d T, i = .edge c d T) ∨ opcodeRow i = ((encode i).word, 0xFF#8) := by
  cases i with
  | edge c d T => exact .inl ⟨c, d, T, rfl⟩
  | _ => exact .inr rfl

/-- A row holds only encoded words of its mnemonic. -/
theorem encode_of_matchesRow (h : matchesRow w i = true) : ∃ j, mnemonicOf j = mnemonicOf i ∧ (encode j).word = w := by
  rcases opcodeRow_cases i with ⟨c, d, T, rfl⟩ | hrow
  · exact ⟨.edge (w.getLsbD 1) (w.getLsbD 0) T, rfl, (eq_edgeWord (eq_of_beq h)).symm⟩
  · simp only [matchesRow, hrow, and_fullMask, beq_iff_eq] at h
    exact ⟨i, rfl, h.symm⟩

/-- A word in the row of a mnemonic decodes to that mnemonic. -/
theorem decode_of_matchesRow (tsW n : Nat) (h : matchesRow w i = true) :
    ∃ j, decode tsW ⟨w, n⟩ = .instr j ∧ mnemonicOf j = mnemonicOf i := by
  obtain ⟨j, hm, rfl⟩ := encode_of_matchesRow h
  exact ⟨_, decode_encode_word tsW n j, by simpa using hm⟩

/-- A word in the row of EDGE decodes to EDGE, with its two low bits and the operand. -/
theorem decode_of_edgeRow (h : w &&& 0xFC#8 = 0x10#8) :
    decode tsW ⟨w, n⟩ = .instr (.edge (w.getLsbD 1) (w.getLsbD 0) (n % 2 ^ tsW)) := by
  rw [← decode_edgeWord, ← eq_edgeWord h]

/-- A word in no row is reserved. -/
theorem decode_of_no_row (tsW n : Nat) (h : ∀ i, matchesRow w i = false) : decode tsW ⟨w, n⟩ = .reserved w := by
  rw [decode_eq_reserved_iff]
  rintro i rfl
  exact Bool.false_ne_true ((h i).symm.trans (matchesRow_encode i))

/-- Settles O4. The round trip is the operand put back; the converse is what the decoder can answer; the rows hold the
encoded words and no others; and as the decoder gives one answer, no word is in the rows of two mnemonics. -/
theorem decodeAndEncodeAgree : Obligations.DecodeAndEncodeAgree := by
  refine ⟨fun tsW i h => ?_, fun tsW x i h => ?_, fun tsW n w i h => decode_of_matchesRow tsW n h,
    fun tsW n w h => decode_of_no_row tsW n h, fun w i j hi hj => ?_⟩
  · exact (decode_encode_word tsW (encode i).operand i).trans (congrArg _ (withOperand_encode_operand h))
  · rcases decode_cases tsW x with ⟨j, hw, hd⟩ | ⟨-, hd⟩ <;> cases h.symm.trans hd
    have hw' : (encode (j.withOperand tsW x.operand)).word = x.word := encode_withOperand_word.trans hw
    exact ⟨withOperand_wf, hw', hw' ▸ matchesRow_encode _⟩
  · obtain ⟨k, hk, hki⟩ := decode_of_matchesRow 0 0 hi
    obtain ⟨l, hl, hlj⟩ := decode_of_matchesRow 0 0 hj
    cases hk.symm.trans hl
    exact hki.symm.trans hlj

/-- Settles O2, row by row: the word of a row decodes to its transaction, and a word that passes no row's test is in no
row. -/
theorem decoderIsTheOpcodeMap : Obligations.DecoderIsTheOpcodeMap := by
  intro tsW w n
  symm
  repeat' refine ite_eq_iff'.2 ⟨fun h => ?_, fun h => ?_⟩
  all_goals symm
  · subst h; exact decode_encode_word tsW n .nop
  · subst h; exact decode_encode_word tsW n .reset
  · exact decode_of_edgeRow h
  · subst h; exact decode_encode_word tsW n .rdCtrl
  · subst h; exact decode_encode_word tsW n .rdValue
  · subst h; exact decode_encode_word tsW n .rdDp
  · subst h; exact decode_encode_word tsW n .rdSign
  · subst h; exact decode_encode_word tsW n (.wrCtrl 0#32)
  · subst h; exact decode_encode_word tsW n (.wrValue 0#32)
  · subst h; exact decode_encode_word tsW n (.wrDp 0#32)
  · subst h; exact decode_encode_word tsW n (.wrSign 0#32)
  · refine decode_of_no_row tsW n fun i => ?_
    cases i <;> simp_all [matchesRow, opcodeRow, and_fullMask]

/-- Settles O1: the decoder evaluated on each of the seventeen words. -/
theorem decodeReadsSpecWords : Obligations.DecodeReadsSpecWords := by
  unfold Obligations.DecodeReadsSpecWords
  decide

/-- Whether a word is reserved does not depend on the operand or the timestamp's width. -/
theorem decode_eq_reserved_iff_zero : decode tsW ⟨w, n⟩ = .reserved w ↔ decode 0 ⟨w, 0⟩ = .reserved w :=
  decode_eq_reserved_iff.trans decode_eq_reserved_iff.symm

/-- Settles O3: the operand taken away, the 256 words are counted. -/
theorem exactlyFourteenWordsAssigned : Obligations.ExactlyFourteenWordsAssigned := by
  intro tsW n
  simp only [ne_eq, decode_eq_reserved_iff_zero]
  decide

end Sys2Proof

namespace Sys2Proof.Machine

/-! ### Reserved words (30_encoding.md R78) -/

/-- A step on a reserved word from outside raises the mark on the machine without the turn. -/
theorem step_reserved {s : State} {x : Transaction} {rest : List Turn} {w : Code}
    (ht : s.turns = .transaction x :: rest) (hd : decode s.params.tsW x = .reserved w) :
    step s = .next (raiseRefuse (.reservedWord w) (s.setTurns rest)) :=
  (step_cons ht).trans (runTransaction_reserved hd)

/-- Settles O6: raising the mark sets `REFUSED` alone. -/
theorem reservedWordOnlyRefuses : Obligations.ReservedWordOnlyRefuses :=
  fun _ _ _ _ ht hd => step_reserved ht hd

/-! ### Pseudo-transactions (30_encoding.md R87) -/

/-- The write of ARMTRIG: flag set, trigger high. -/
theorem writeReg_armTrig (k : Block) :
    writeReg .ctrl 0x00000003#32 k = { k with isReading := true, trigOut := true } := rfl

@[simp] theorem armedAfter_armTrig (b : Bool) : armedAfter 0x00000003#32 b = true := rfl

/-- `BIT T, b` hands `b` to the decoder: inverting twice is not inverting. -/
theorem dataBit_pseudoBit (p : BlockParams) (b : Bool) : dataBit p (b ^^ p.dataInvert) = b := by simp [dataBit]

/-- At the active clock level only the flag decides the gate. -/
theorem gateOpen_clkActiveLevel (p : BlockParams) (k : Block) : gateOpen p p.clkActiveLevel k = k.isReading := by
  simp [gateOpen]

@[simp] theorem pseudoFrame_length (p : BlockParams) (T0 : Nat) (F : FrameWord) : (pseudoFrame p T0 F).length = 52 := by
  simp [pseudoFrame, pseudoBits, Config.frameLen]

theorem pseudoFrame_bit (p : BlockParams) (T0 : Nat) (F : FrameWord) {i : Nat} (h : i < 52) :
    (pseudoFrame p T0 F)[i]? = some (pseudoBit p (T0 + i) (F.getLsbD i)) := by
  simp [pseudoFrame, pseudoBits, Config.frameLen, frameBit, h]

/-- Settles O54: the four writes of CTRL by their two low bits, BIT at the active clock level, FRAME bit by bit. -/
theorem pseudoTransactionsDoAsNamed : Obligations.PseudoTransactionsDoAsNamed := by
  refine ⟨fun s => ⟨?arm, ?armTrig, ?trigHi, ?trigLo⟩, fun p T b => ?bit, fun p T0 F => ?frame⟩
  case arm => rw [pseudoArm, exec_wrCtrl, writeReg_arm, armedAfter_arm]; rfl
  case armTrig => rw [pseudoArmTrig, exec_wrCtrl, writeReg_armTrig, armedAfter_armTrig]; rfl
  case trigHi => rw [pseudoTrigHi, exec_wrCtrl, writeReg_trigHi, armedAfter_trigHi]; rfl
  case trigLo => rw [pseudoTrigLo, exec_wrCtrl, writeReg_trigLo, armedAfter_trigLo]; rfl
  case bit => exact ⟨p.clkActiveLevel, b ^^ p.dataInvert, rfl, dataBit_pseudoBit p b, gateOpen_clkActiveLevel p⟩
  case frame => exact ⟨pseudoFrame_length p T0 F, fun i h => pseudoFrame_bit p T0 F h, rfl⟩

end Sys2Proof.Machine

/-! Proofs of the family "edge sampler" (40_edge_sampler.md): the gated-off edge (R102, R104), the two ways an accepted
edge takes a bit that does not end its frame (R105), NOP (R106), and what the host leaves to the interrupt side (R108). -/

namespace Sys2Proof.Machine

variable {p : BlockParams} {c d : Bool} {T : Nat} {k : Block}

/-! ### NOP and the gated-off edge (40_edge_sampler.md R102, R106) -/

/-- Settles O12: the meaning of NOP is the state itself. -/
theorem nopChangesNothing : Obligations.NopChangesNothing := exec_nop

/-- Settles O13: either disjunct closes the gate, and then the acknowledge is all that is left of the edge. -/
theorem gatedEdgeChangesNothing : Obligations.GatedEdgeChangesNothing :=
  fun c d T _ h => exec_edge_closed c d T (gateOpen_false_iff.2 h)

/-! ### The bit an accepted edge takes (40_edge_sampler.md R101, 41_frame_decoder.md R123) -/

/-- The sampled level shifted into a nibble, as numbers: the bit is 1 where the level is not `DATA_INVERT`. -/
theorem shiftIn_dataBit_toNat (p : BlockParams) (d : Bool) (n : Nibble) :
    (shiftIn (dataBit p d) n).toNat = n.toNat / 2 + if d = p.dataInvert then 0 else 8 := by
  rw [shiftIn_toNat, dataBit]
  cases d <;> cases p.dataInvert <;> rfl

/-- The buffer after a shift into nibble `m`, nibble by nibble. -/
theorem nibAt_nibSet_shiftIn_toNat (p : BlockParams) (d : Bool) (v : Nibbles) {m : Nat} (hm : m < 13) (j : Nat) :
    (nibAt (nibSet v m (shiftIn (dataBit p d) (nibAt v m))) j).toNat =
      if j = m then (nibAt v j).toNat / 2 + (if d = p.dataInvert then 0 else 8) else (nibAt v j).toNat := by
  rw [nibAt_nibSet v m j _ hm]
  by_cases h : j = m
  · rw [if_pos h, if_pos h, h, shiftIn_dataBit_toNat]
  · rw [if_neg h, if_neg h]

/-- The buffer after the first bit of a frame: nibble 0 holds the bit at its top, the others are empty. -/
theorem nibAt_firstBit_toNat (p : BlockParams) (d : Bool) (j : Nat) :
    (nibAt (nibSet nibClear 0 (shiftIn (dataBit p d) 0#4)) j).toNat = if j = 0 ∧ d ≠ p.dataInvert then 8 else 0 := by
  rw [← nibAt_nibClear 0, nibAt_nibSet_shiftIn_toNat p d nibClear (by decide), nibAt_nibClear]
  by_cases h : j = 0 <;> by_cases hd : d = p.dataInvert <;> simp [h, hd]

/-- Settles O14: the gate open, no gap and fewer than 51 bits taken leave the edge one thing to do. -/
theorem edgeShiftsItsBitIn : Obligations.EdgeShiftsItsBitIn := by
  intro c d T s hr hc hb hgap
  have hnext : BitVec.ofNat 6 (s.block.bc.toNat + 1) = s.block.bc + 1#6 := by
    rw [BitVec.ofNat_add, BitVec.ofNat_toNat, BitVec.setWidth_eq]
  refine ⟨_, ?_, fun j _ => nibAt_nibSet_shiftIn_toNat s.params d s.block.nib (by omega) j⟩
  rw [exec_edge c d T (by omega), edgeBlock_shift (gateOpen_iff.2 ⟨hr, hc⟩) (gapExceeded_false_iff_gapOf.2 hgap) hb,
    hnext]
  rfl

/-- Settles O15: after a gap the bit goes into an empty buffer, so even the 52nd bit completes nothing. -/
theorem edgeAfterGapStartsNewFrame : Obligations.EdgeAfterGapStartsNewFrame := by
  intro c d T s hr hc hb hgap
  refine ⟨_, ?_, fun j _ => nibAt_firstBit_toNat s.params d j⟩
  rw [exec_edge c d T hb, edgeBlock_gap (gateOpen_iff.2 ⟨hr, hc⟩) (gapExceeded_iff_gapOf.2 hgap)]
  rfl

/-! ### What every edge leaves (40_edge_sampler.md R104) -/

/-- Every edge ends with the acknowledge. -/
@[simp] theorem edgeBlock_pend : (edgeBlock p c d T k).pend = false := rfl

/-- Settles O17: the edge is a new block alone, acknowledged, with the trigger as it was and not armed by it. -/
theorem edgeFrame : Obligations.EdgeFrame := by
  intro c d T s hb
  refine ⟨_, exec_edge c d T hb, edgeBlock_pend, edgeBlock_trigOut .., fun h =>
    Bool.eq_true_of_not_eq_false fun hr => ?_⟩
  simp [edgeBlock_unarmed hr] at h

/-! ### What the host owns (40_edge_sampler.md R108) -/

/-- A write of CTRL never clears the flag: bit 0 is write-1-to-set (42_result_slot.md R160). -/
theorem armedAfter_of_reading (v : Word) {b : Bool} (h : b = true) : armedAfter v b = true := by
  rw [armedAfter, h, Bool.or_true]

/-- Settles O53: of the six things a transaction can do, the host's do nothing, answer a read or write CTRL. -/
theorem hostOwnsOnlyArmAndTrigger : Obligations.HostOwnsOnlyArmAndTrigger := by
  intro i s hi
  rcases exec_cases i s with h | ⟨rfl, -⟩ | ⟨c, d, T, rfl, -⟩ | ⟨c, d, T, rfl, -⟩ | ⟨-, v, h⟩ | ⟨v, -, h⟩
  · exact ⟨_, _, _, _, h, id⟩
  · exact nomatch hi
  · exact nomatch hi
  · exact nomatch hi
  · exact ⟨_, _, _, v, h, id⟩
  · exact ⟨_, _, _, _, h, armedAfter_of_reading v⟩

end Sys2Proof.Machine

/-! Proofs of the family "frame decoder" (41_frame_decoder.md): gap reset, accumulation and completion as component
rules (R121, R123, R127 to R129), the edge that completes a frame and the one with no meaning (R124 to R129), whole
frames and frames with a gap inside (R132 to R134). -/

namespace Sys2Proof.Machine

variable {p : BlockParams} {f : Nat → Nat × Bool} {T n : Nat} {k : Block}

/-! ### The component rules (41_frame_decoder.md R121, R123, R127, R128) -/

theorem gapReset_of_gap (h : gapOf p T k.prevTs > p.maxBitWait) :
    gapReset p T k = { k with bc := 0#6, nib := nibClear } := by
  rw [gapReset, if_pos (gapExceeded_iff_gapOf.2 h)]

theorem gapReset_of_no_gap (h : gapOf p T k.prevTs ≤ p.maxBitWait) : gapReset p T k = k := by
  rw [gapReset, gapExceeded_false_iff_gapOf.2 h, if_neg Bool.false_ne_true]

/-- Settles O19: the two outcomes of the gap test. -/
theorem gapResetRule : Obligations.GapResetRule := fun _ _ _ => ⟨gapReset_of_gap, gapReset_of_no_gap⟩

/-- The shift of one bit with the bit as a number, which four shifts in a row are computed with. -/
theorem shiftIn_toNat_add (b : Bool) (n : Nibble) : (shiftIn b n).toNat = n.toNat / 2 + 8 * b.toNat := by
  rw [shiftIn_toNat]
  cases b <;> rfl

/-- Settles O20: each shift halves what the nibble held, so after four nothing of `n` is left. -/
theorem nibbleIsLeastSignificantBitFirst : Obligations.NibbleIsLeastSignificantBitFirst := by
  intro n b0 b1 b2 b3
  have hn := n.isLt
  have h0 := b0.toNat_le
  have h1 := b1.toNat_le
  have h2 := b2.toNat_le
  simp only [shiftIn_toNat_add]
  omega

theorem signIsPositive_iff (n : Nibble) : signIsPositive n = true ↔ n.toNat = 0 := by
  rw [signIsPositive, beq_iff_eq, ← BitVec.toNat_inj]
  rfl

/-- Settles O21: the decimal point is copied, the sign is the test of nibble 4. -/
theorem completionReadsSignAndPoint : Obligations.CompletionReadsSignAndPoint :=
  fun k => ⟨signIsPositive_iff (nibAt k.nib 4), rfl⟩

/-- Settles O22: the weighted sum fits `M_VALUE`, so nothing of it is cut off. -/
theorem completionComputesTheValue : Obligations.CompletionComputesTheValue := by
  intro k
  have hv : (completeFrame k).mValue.toNat = frameValue k.nib := mValue_frameValue k.nib
  exact ⟨hv, hv ▸ frameValue_le k.nib⟩

/-! ### The edge that completes a frame, and the one with no meaning (41_frame_decoder.md R124 to R129) -/

/-- Settles O18: the gate is open, so the decoder would be called. -/
theorem edgeBeyondBitCountRefuses : Obligations.EdgeBeyondBitCountRefuses :=
  fun c d T _ hr hc hb => exec_edge_refused c d T (gateOpen_iff.2 ⟨hr, hc⟩) hb

/-- Settles O16: the gate open, no gap and 51 bits taken make the edge a completion; the value is the buffer's, which
fits 21 bits. -/
theorem fiftySecondBitCompletesAndPublishes : Obligations.FiftySecondBitCompletesAndPublishes := by
  intro c d T s value hr hc hb hgap hvalue
  obtain rfl : value = frameValue s.block.nib := hvalue
  refine ⟨?_, (frameValue_le s.block.nib).trans_lt (by decide)⟩
  rw [exec_edge c d T (by omega), edgeBlock_complete (gateOpen_iff.2 ⟨hr, hc⟩) (gapExceeded_false_iff_gapOf.2 hgap) hb]
  rfl

/-! ### A whole frame (41_frame_decoder.md R132, R134) -/

/-- The last stored timestamp counts as the timestamp itself. -/
theorem gapOf_mod_right (p : BlockParams) (T prev : Nat) : gapOf p T (prev % 2 ^ p.tsW) = gapOf p T prev := by
  rw [← gapOf_mod_left, gapOf_mod]

theorem SameResults.refl (k : Block) : SameResults k k := ⟨rfl, rfl, rfl, rfl, rfl, rfl, rfl, rfl⟩

/-- From a frame boundary, bits with no gap between them that do not fill the frame are counted from 0, and nothing is
completed. -/
theorem feed_within_frame (hr : k.isReading = true) (h0 : k.bc = 0#6) (hn : n ≤ 51)
    (hg : ∀ i, i + 1 < n → gapOf p (f (i + 1)).1 (f i).1 ≤ p.maxBitWait) :
    SameResults k (feed p f n k) ∧ (feed p f n k).bc.toNat = n := by
  cases n with
  | zero => exact ⟨.refl k, congrArg BitVec.toNat h0⟩
  | succ n =>
    obtain ⟨hsame, hbc, -⟩ := feed_from_zero hr h0 (by omega) hg
    exact ⟨hsame, hbc⟩

/-- A buffer that holds the final nibbles of `F` has its value. -/
theorem frameValue_eq_frameDigits {F : FrameWord} {v : Nibbles} (h : ∀ j, j < 12 → nibAt v j = frameNibble F j) :
    frameValue v = frameDigits F := by
  simp [frameValue, frameDigits, h]

/-- 52 bits from a frame boundary, those of `F`: the last finds nibbles 0 to 11 final and completes the frame. -/
theorem feed_whole_frame {F : FrameWord} (hF : ∀ i, (f i).2 = frameBit F i) (hr : k.isReading = true)
    (h0 : k.bc = 0#6) (hg : ∀ i, i + 1 < 52 → gapOf p (f (i + 1)).1 (f i).1 ≤ p.maxBitWait) :
    feed p f 52 k =
      { k with
        bc := 0#6, nib := nibClear, prevTs := storedTs p (f 51).1
        mValue := BitVec.ofNat 21 (frameDigits F), mDp := frameDp F, mPos := framePos F
        slotValue := BitVec.ofNat 32 (frameDigits F % 2 ^ p.slotValueW), slotDp := frameDp F
        slotPos := framePos F, isReading := false, pend := false } := by
  have hg51 : ∀ i, i + 1 < 51 → gapOf p (f (i + 1)).1 (f i).1 ≤ p.maxBitWait := fun i hi => hg i (by omega)
  obtain ⟨⟨hflag, htrig, -⟩, hbc, hts⟩ := feed_from_zero (n := 50) hr h0 (by omega) hg51
  have hcontent : Content (fun i => ((f i).1, frameBit F i)) 51 (feed p f 51 k).nib := fun j i hj hi hlt =>
    (feed_content hr h0 50 (by omega) hg51 j i hj hi hlt).trans (hF _)
  have hnib := nibAt_of_content hcontent
  have hgap : gapOf p ((f 51).1 % 2 ^ p.tsW) (feed p f 51 k).prevTs ≤ p.maxBitWait := by
    rw [hts, gapOf_mod]
    exact hg 50 (by omega)
  rw [feed, edgeBlock_complete (gateOpen_iff.2 ⟨hflag.trans hr, rfl⟩) (gapExceeded_false_iff_gapOf.2 hgap) hbc,
    frameValue_eq_frameDigits hnib, hnib 11 (by omega), hnib 4 (by omega), htrig]
  simp [storedTs, frameDp, framePos, signIsPositive]

/-- Settles O23: the run is the bits fed to the block; 51 of them complete nothing, and the 52nd finds the frame word in
the buffer. -/
theorem wholeFrameIsDecodedAndPublished : Obligations.WholeFrameIsDecodedAndPublished := by
  intro s F ts rest hr h0 hg ht
  set f : Nat → Nat × Bool := fun i => (ts i, frameBit F i)
  have hrun := runSteps_bits (by simp [h0]) ht
  refine ⟨fun n hn => ⟨_, hrun n (by omega), ?_⟩, ?_⟩
  · obtain ⟨⟨hflag, -, hmv, hmd, hmp, hsv, hsd, hsp⟩, hbc⟩ :=
      feed_within_frame (f := f) hr h0 (show n ≤ 51 by omega) fun i hi => hg i (by omega)
    exact ⟨hflag.trans hr, hbc, hsv, hsd, hsp, hmv, hmd, hmp⟩
  · rw [hrun 52 le_rfl, feed_whole_frame (f := f) (fun _ => rfl) hr h0 hg,
      List.drop_of_length_le (by simp [bitTurns, pseudoBits])]
    rfl

/-! ### A gap inside a frame (41_frame_decoder.md R133) -/

/-- After a gap the block goes on as if it stood at a frame boundary with an empty buffer: what the buffer held is
without effect on all later bits. -/
theorem feed_after_gap (hr : k.isReading = true) (hgap : gapOf p (f 0).1 k.prevTs > p.maxBitWait) (n : Nat) :
    feed p f (n + 1) k = feed p f (n + 1) { k with bc := 0#6, nib := nibClear } := by
  induction n with
  | zero =>
    have hex := gapExceeded_iff_gapOf.2 (by rwa [gapOf_mod_left])
    rw [feed, feed, feed, feed, edgeBlock_gap (gateOpen_iff.2 ⟨hr, rfl⟩) hex,
      edgeBlock_gap (k := { k with bc := 0#6, nib := nibClear }) (gateOpen_iff.2 ⟨hr, rfl⟩) hex]
  | succ n ih => rw [feed, ih, ← feed]

/-- The only gap being before bit `m`, up to 52 bits from a frame boundary complete nothing, and the count starts again
at bit `m`. -/
theorem feed_gap_inside {m : Nat} (hr : k.isReading = true) (h0 : k.bc = 0#6) (hm : 0 < m) (hm' : m < 52)
    (hg : ∀ i, i + 1 < 52 → i + 1 ≠ m → gapOf p (f (i + 1)).1 (f i).1 ≤ p.maxBitWait)
    (hgap : gapOf p (f m).1 (f (m - 1)).1 > p.maxBitWait) (hn : n ≤ 52) :
    SameResults k (feed p f n k) ∧ (feed p f n k).bc.toNat = if n ≤ m then n else n - m := by
  by_cases hnm : n ≤ m
  · rw [if_pos hnm]
    exact feed_within_frame hr h0 (by omega) fun i hi => hg i (by omega) (by omega)
  · rw [if_neg hnm]
    obtain ⟨l, rfl⟩ := Nat.exists_eq_add_of_le' hm
    obtain ⟨j, rfl⟩ := Nat.exists_eq_add_of_lt (Nat.lt_of_not_le hnm)
    obtain ⟨hold, -, hts⟩ :=
      feed_from_zero (n := l) hr h0 (by omega) fun i hi => hg i (by omega) (by omega)
    have hgap' : gapOf p (f (l + 1)).1 (feed p f (l + 1) k).prevTs > p.maxBitWait := by
      rwa [hts, gapOf_mod_right]
    rw [Nat.add_assoc, feed_add, feed_after_gap (f := fun i => f (l + 1 + i)) (hold.1.trans hr) hgap',
      Nat.add_sub_cancel_left]
    obtain ⟨hnew, hbc⟩ := feed_within_frame (p := p) (f := fun i => f (l + 1 + i)) (n := j + 1)
      (k := { feed p f (l + 1) k with bc := 0#6, nib := nibClear }) (hold.1.trans hr) rfl (by omega)
      fun i hi => hg (l + 1 + i) (by omega) (by omega)
    exact ⟨hold.trans hnew, hbc⟩

/-- Settles O24: the run is the bits fed to the block; the bit after the gap is the case `n = m + 1`. -/
theorem gapInsideAFrameDiscardsIt : Obligations.GapInsideAFrameDiscardsIt := by
  intro s f m rest hr h0 hm hm' hg hgap ht
  have hrun := runSteps_bits (by simp [h0]) ht
  have hfeed {n : Nat} (hn : n ≤ 52) := feed_gap_inside hr h0 hm hm' hg hgap hn
  refine ⟨⟨_, hrun (m + 1) hm', BitVec.eq_of_toNat_eq ?_⟩, fun n hn => ⟨_, hrun n hn, ?_⟩⟩
  · exact (hfeed hm').2.trans (by simp)
  · obtain ⟨⟨hflag, -, -, -, -, hsv, hsd, hsp⟩, hbc⟩ := hfeed hn
    exact ⟨hflag.trans hr, hbc, hsv, hsd, hsp⟩

end Sys2Proof.Machine

/-! Proofs of the family "result slot" (42_result_slot.md): the hand-off of a published frame to the host that reads it
(R174), and the host's reads (R170 to R173) and writes (R160 to R163) of the registers. -/

namespace Sys2Proof.Machine

variable {s t : State} {i : Instr} {x : Transaction} {rest : List Turn}

/-! ### The hand-off (42_result_slot.md R174) -/

/-- Before its verdict the host has read nothing of the slot. -/
theorem handoffInv_of_awaitsVerdict (h : awaitsVerdict s.host.phase = true) : HandoffInv s := by
  unfold HandoffInv
  cases hq : s.host.phase <;> simp [awaitsVerdict, hq] at h ⊢

/-- The poll loop, entered or past, comes before the verdict. -/
theorem awaitsVerdict_pollOrDeassert (n : Nat) : awaitsVerdict (pollOrDeassert n) = true := by cases n <;> rfl

/-- While the host stands still, the hand-off is kept by whatever leaves an unarmed block's flag and slot alone: at the
control points where it says anything, the block is unarmed. -/
theorem HandoffInv.frame (h : HandoffInv s) (hq : t.host.phase = s.host.phase)
    (hb : s.block.isReading = false → ∃ pd tr, t.block = { s.block with pend := pd, trigOut := tr }) :
    HandoffInv t := by
  by_cases hr : s.block.isReading = false
  · obtain ⟨pd, tr, hb⟩ := hb hr
    unfold HandoffInv at h ⊢
    rwa [hq, hb]
  · unfold HandoffInv at h ⊢
    rw [hq]
    cases hp : s.host.phase <;> simp [hp, hr] at h ⊢

/-- A turn that changes neither the block nor the control point keeps the hand-off. -/
theorem HandoffInv.of_same (h : HandoffInv s) (hq : t.host.phase = s.host.phase) (hb : t.block = s.block) :
    HandoffInv t :=
  h.frame hq fun _ => ⟨_, _, hb⟩

/-- What leaves a cycle alone neither arms nor resets. -/
theorem armsOrResets_of_not_disturbsCycle (h : disturbsCycle i = false) : armsOrResets i = false := by
  cases i with
  | reset => cases h
  | wrCtrl v => cases h
  | _ => rfl

/-- A quiet transaction from outside neither arms nor resets. -/
theorem armsOrResets_of_quietTurn (ht : s.turns = .transaction x :: rest)
    (hquiet : quietTurn s.params.tsW (.transaction x) = true) (hi : stepInstr s = some i) : armsOrResets i = false := by
  refine armsOrResets_of_not_disturbsCycle ?_
  cases hd : decode s.params.tsW x <;> simp [stepInstr, ht, turnInstr, hd] at hi
  simpa [quietTurn, hd, hi] using hquiet

/-- The host's turn keeps the hand-off: it starts to read only at a verdict that finds the flag clear, each read takes
its part of the slot as it stands, and no turn from there on writes the block. -/
theorem HandoffInv.afterHostTurn (h : HandoffInv s) (e : hostTurn s = .next t) : HandoffInv t := by
  cases hq : s.host.phase with
  | idle => cases (hostTurn_idle hq).symm.trans e; exact h
  | arm =>
    cases (hostTurn_arm hq).symm.trans e
    exact handoffInv_of_awaitsVerdict (by rw [State.setPhase_phase]; split <;> rfl)
  | trigger => cases (hostTurn_trigger hq).symm.trans e; exact handoffInv_of_awaitsVerdict rfl
  | settle left =>
    cases (hostTurn_settle hq).symm.trans e
    split
    · exact handoffInv_of_awaitsVerdict (awaitsVerdict_pollOrDeassert _)
    · exact h
  | poll more =>
    cases (hostTurn_poll hq).symm.trans e
    exact handoffInv_of_awaitsVerdict (by rw [State.setPhase_phase]; split <;> rfl)
  | pollSleep left more =>
    cases (hostTurn_pollSleep hq).symm.trans e
    split
    · exact handoffInv_of_awaitsVerdict (awaitsVerdict_pollOrDeassert _)
    · exact h
  | deassert => cases (hostTurn_deassert hq).symm.trans e; exact handoffInv_of_awaitsVerdict rfl
  | verdict =>
    cases (hostTurn_verdict hq).symm.trans e
    cases hawait : (s.block.isReading || lostToReset s)
    · exact (Bool.or_eq_false_iff.1 hawait).1
    · trivial
  | timedOut => cases (hostTurn_timedOut hq).symm.trans e; trivial
  | readValue =>
    cases (hostTurn_readValue hq).symm.trans e
    simp only [HandoffInv, hq] at h
    exact ⟨h, rfl⟩
  | readDp v =>
    cases (hostTurn_readDp hq).symm.trans e
    simp only [HandoffInv, hq] at h
    obtain ⟨hr, hv⟩ := h
    exact ⟨hr, hv, rfl⟩
  | readSign v dp =>
    cases (hostTurn_readSign hq).symm.trans e
    simp only [HandoffInv, hq] at h
    obtain ⟨hr, hv, hdp⟩ := h
    exact ⟨hr, hv, hdp, rfl⟩
  | convert v dp pos => cases (hostTurn_convert hq).symm.trans e; trivial

/-- The scheduler's call keeps the hand-off: it moves only an idle host, to a control point before any read. -/
theorem HandoffInv.afterCall (h : HandoffInv s) : HandoffInv (callRunOnce s) := by
  unfold callRunOnce
  split
  · trivial
  · exact h

/-- Time that passes keeps the hand-off: it moves the host only inside its delays, before any read. -/
theorem HandoffInv.afterTick (h : HandoffInv s) (ms : Nat) : HandoffInv (passTime ms s) := by
  have hb : (passTime ms s).block = s.block := passTime_block ms
  cases hq : s.host.phase
  case settle left => exact handoffInv_of_awaitsVerdict (by rw [passTime_phase, hq]; rfl)
  case pollSleep left more => exact handoffInv_of_awaitsVerdict (by rw [passTime_phase, hq]; rfl)
  all_goals exact h.of_same (by rw [passTime_phase, hq]; rfl) hb

/-- Settles O42, by the turn that the step takes: a quiet transaction leaves an unarmed block's slot alone, and the
host's own turn reads it as it stands. -/
theorem stepKeepsHandoff : Obligations.StepKeepsHandoff := by
  intro s t h hquiet e
  rcases step_cases s with ⟨-, hs⟩ | ⟨x, rest, i, hn, -, hs⟩ | ⟨x, rest, w, -, -, hs⟩ | ⟨rest, -, hs⟩ |
    ⟨rest, -, hs⟩ | ⟨ms, rest, -, hs⟩ <;> have e' := hs.symm.trans e
  · cases e'; exact h
  · obtain ⟨-, -, hhost, -⟩ := exec_keeps e'
    have hx := hquiet (.transaction x) (by rw [hn]; rfl)
    exact h.frame (by rw [hhost]; rfl) fun hr =>
      step_unarmed_block hr (fun _ hi => armsOrResets_of_quietTurn hn hx hi) e
  · cases e'; exact h.of_same rfl rfl
  · exact HandoffInv.afterHostTurn (s := s.setTurns rest) h e'
  · cases e'; exact HandoffInv.afterCall (s := s.setTurns rest) h
  · cases e'; exact HandoffInv.afterTick (s := s.setTurns rest) h ms

/-! ### The host's reads (42_result_slot.md R170 to R173) -/

/-- RESULT_DP as a number. -/
theorem readReg_resultDp (k : Block) : readReg .resultDp k = BitVec.ofNat 32 k.slotDp.toNat :=
  (BitVec.ofNat_toNat 32 k.slotDp).symm

/-- RESULT_SIGN as a number. -/
theorem readReg_resultSign (k : Block) : readReg .resultSign k = BitVec.ofNat 32 k.slotPos.toNat := by
  rw [readReg]
  cases k.slotPos <;> rfl

/-- Settles O26: the read data is the register's word, as a number. -/
theorem readOfCtrl : Obligations.ReadOfCtrl := by
  intro s
  rw [exec_rdCtrl, readReg_ctrl]
  rfl

/-- Settles O27: the register's word is the slot's value itself. -/
theorem readOfValue : Obligations.ReadOfValue := by
  intro s
  rw [exec_rdValue, readReg_resultValue]
  rfl

/-- Settles O28: the read data are the registers' words, as numbers. -/
theorem readsOfPointAndSign : Obligations.ReadsOfPointAndSign := by
  intro s
  rw [exec_rdDp, exec_rdSign, readReg_resultDp, readReg_resultSign]
  exact ⟨rfl, rfl⟩

/-! ### The host's writes (42_result_slot.md R160 to R163) -/

/-- `WDATA[0]` as the parity of the word. -/
theorem wdataArm_eq (v : Word) : wdataArm v = decide (v.toNat % 2 = 1) := by
  rw [wdataArm, ← BitVec.testBit_toNat, Nat.testBit_zero]

/-- `WDATA[1]` as the second binary digit of the word. -/
theorem wdataTrig_eq (v : Word) : wdataTrig v = decide (v.toNat / 2 % 2 = 1) := by
  rw [wdataTrig, ← BitVec.testBit_toNat, Nat.testBit_succ, Nat.testBit_zero]

/-- Write-1-to-set: bit 0 sets the flag, and without it the flag stays. -/
theorem armedAfter_eq (v : Word) (b : Bool) : armedAfter v b = if v.toNat % 2 = 1 then true else b := by
  rw [armedAfter, wdataArm_eq]
  split <;> simp [*]

/-- Settles O29: bits 0 and 1 of the word are all that the write looks at. -/
theorem writeOfCtrl : Obligations.WriteOfCtrl := by
  intro v s
  refine ⟨armedAfter v s.armedSinceReset, ?_⟩
  rw [exec_wrCtrl, writeReg, armedAfter_eq v s.block.isReading, wdataTrig_eq]
  rfl

/-- Settles O30: each of the three writes is the state itself. -/
theorem writesOfResultsAreIgnored : Obligations.WritesOfResultsAreIgnored :=
  fun v s => ⟨exec_wrValue s v, exec_wrDp s v, exec_wrSign s v⟩

end Sys2Proof.Machine

/-! Proofs of the family "host cycle" (43_host_cycle.md), first part: one turn of the host at each control point (R183
to R190), and the trigger level (R192). -/

namespace Sys2Proof.Machine

variable {s t : State} {rest : List Turn}

/-! ### One turn of the host (43_host_cycle.md R183, R184, R186 to R189) -/

theorem step_hostTurn (ht : s.turns = .host :: rest) : step s = hostTurn (s.setTurns rest) := step_cons ht

theorem pollOrDeassert_eq (n : Nat) : pollOrDeassert n = if n = 0 then .deassert else .poll (n - 1) := by
  cases n <;> rfl

/-- Settles O39: the words 1 and 2 that the host writes, at its first two control points. -/
theorem cycleArmsThenTriggers : Obligations.CycleArmsThenTriggers := by
  refine fun s rest ht => ⟨fun hq => ⟨true, ?_⟩, fun hq => ?_⟩ <;> rw [step_hostTurn ht]
  · exact hostTurn_arm (s := s.setTurns rest) hq
  · exact hostTurn_trigger (s := s.setTurns rest) hq

/-- Settles O40: the delays return when nothing is left of them, and the poll looks at the flag. -/
theorem pollChecksThenSleeps : Obligations.PollChecksThenSleeps := by
  refine fun s rest left more ht => ⟨fun hq => ?_, fun hq => ?_, fun hq => ?_⟩ <;> rw [step_hostTurn ht]
  · rw [hostTurn_settle (s := s.setTurns rest) hq, if_pos rfl, pollOrDeassert_eq]
    rfl
  · rw [hostTurn_poll (s := s.setTurns rest) hq, readReg_ctrl]
    rfl
  · rw [hostTurn_pollSleep (s := s.setTurns rest) hq, pollOrDeassert_eq]
    by_cases hl : left = 0
    · subst hl; rfl
    · rw [if_neg hl, if_pos hl, ← hq]; rfl

/-- Settles O41: the word 0 that the host writes after the loop, and the read that decides. -/
theorem cycleDeassertsThenDecides : Obligations.CycleDeassertsThenDecides := by
  refine fun s rest ht => ⟨fun hq => ?_, fun hq => ?_⟩ <;> rw [step_hostTurn ht]
  · exact hostTurn_deassert (s := s.setTurns rest) hq
  · rw [hostTurn_verdict (s := s.setTurns rest) hq, readReg_ctrl]
    rfl

/-- With the host's tests of bit 0 alone no cycle is lost to a RESET. -/
theorem lostToReset_of_bitZeroAlone (h : s.hostParams.resetTimesOut = false) : lostToReset s = false := by
  rw [lostToReset, h, Bool.false_and]

/-- Settles O59: bit 0 of the word read is the flag, and nothing else is asked. -/
theorem bitZeroAloneDecides : Obligations.BitZeroAloneDecides := by
  refine ⟨rfl, fun s rest more h ht => ⟨fun hq => ?_, fun hq => ?_⟩⟩
  · refine ⟨_, (step_hostTurn ht).trans (hostTurn_poll hq), ctrlReading_readReg s.block, ?_⟩
    simp [lostToReset_of_bitZeroAlone h]
  · refine ⟨_, (step_hostTurn ht).trans (hostTurn_verdict hq), ctrlReading_readReg s.block, ?_⟩
    simp [lostToReset_of_bitZeroAlone h]

/-- What a successful cycle hands downstream, with the sign as a factor (43_host_cycle.md R188, R189). -/
theorem cycleResult_eq (hp : HostParams) (v : Word) (dp : Nibble) (pos : Bool) {x : Rat}
    (hx : x = (if pos then 1 else -1) * (v.toNat : Rat) / (10 : Rat) ^ dp.toNat) :
    cycleResult hp v dp pos =
      if 5 < dp.toNat ∨ 999999 < v.toNat then .warn .malformedField
      else .emit (Config.toFloat (if hp.invertSign then -x else x)) := by
  have hscaled : scaledValue hp v dp pos = if hp.invertSign then -x else x := by
    rw [scaledValue, hx]
    cases pos <;> simp
  rw [cycleResult, hscaled]
  simp [malformed]

/-- Settles O43: what the host has read is the slot as it stands. -/
theorem cycleReportsTheSlot : Obligations.CycleReportsTheSlot := by
  intro s rest v dp pos x h ht hq hx
  simp only [HandoffInv, hq] at h
  obtain ⟨-, rfl, rfl, rfl⟩ := h
  rw [step_hostTurn ht, hostTurn_convert (s := s.setTurns rest) hq, ← cycleResult_eq s.hostParams _ _ _ hx]
  rfl

/-- Settles O45: the host is idle, the trigger low. -/
theorem hostInvsAtReset : Obligations.HostInvsAtReset := ⟨trivial, rfl⟩

/-! ### The trigger level (43_host_cycle.md R192) -/

/-- The trigger invariant speaks of the control point, the trigger and the host's parameters only. -/
theorem TriggerInv.of_same (h : TriggerInv s) (hq : t.host.phase = s.host.phase)
    (hb : t.block.trigOut = s.block.trigOut) (hh : t.hostParams = s.hostParams) : TriggerInv t := by
  unfold TriggerInv at h ⊢
  rwa [hq, hb, hh]

/-- What leaves a cycle alone leaves the trigger alone. -/
theorem exec_trigOut {i : Instr} (h : disturbsCycle i = false) (e : exec i s = .next t) :
    t.block.trigOut = s.block.trigOut := by
  rcases exec_cases i s with h' | ⟨rfl, -⟩ | ⟨c, d, T, -, -, h'⟩ | ⟨c, d, T, -, -, -, h'⟩ | ⟨-, v, h'⟩ | ⟨v, rfl, -⟩
  case inr.inl => cases h
  case inr.inr.inr.inr.inr => cases h
  case inr.inr.inl => cases h'.symm.trans e; exact edgeBlock_trigOut ..
  all_goals cases h'.symm.trans e; rfl

/-- The poll loop, entered or past, has the trigger as the settle delay left it. -/
theorem triggerInv_pollOrDeassert {n : Nat} (h : s.block.trigOut = s.hostParams.autoTrigger) :
    TriggerInv (s.setPhase (pollOrDeassert n)) := by
  cases n <;> exact h

/-- The host's turn keeps the trigger level: the arming write lowers it, the trigger write (if there is one) raises it,
the deassert lowers it, and no other turn of the host writes CTRL. -/
theorem TriggerInv.afterHostTurn (h : TriggerInv s) (e : hostTurn s = .next t) : TriggerInv t := by
  cases hq : s.host.phase <;> simp only [TriggerInv, hq] at h
  case idle => cases (hostTurn_idle hq).symm.trans e; simpa only [TriggerInv, hq] using h
  case arm =>
    cases (hostTurn_arm hq).symm.trans e
    cases hauto : s.hostParams.autoTrigger
    · exact hauto.symm
    · exact ⟨rfl, hauto⟩
  case trigger => cases (hostTurn_trigger hq).symm.trans e; exact h.2.symm
  case settle left =>
    cases (hostTurn_settle hq).symm.trans e
    split
    · exact triggerInv_pollOrDeassert h
    · simpa only [TriggerInv, hq] using h
  case poll more =>
    cases (hostTurn_poll hq).symm.trans e
    split <;> exact h
  case pollSleep left more =>
    cases (hostTurn_pollSleep hq).symm.trans e
    split
    · exact triggerInv_pollOrDeassert h
    · simpa only [TriggerInv, hq] using h
  case deassert => cases (hostTurn_deassert hq).symm.trans e; rfl
  case verdict =>
    cases (hostTurn_verdict hq).symm.trans e
    split <;> exact h
  case timedOut => cases (hostTurn_timedOut hq).symm.trans e; exact h
  case readValue => cases (hostTurn_readValue hq).symm.trans e; exact h
  case readDp v => cases (hostTurn_readDp hq).symm.trans e; exact h
  case readSign v dp => cases (hostTurn_readSign hq).symm.trans e; exact h
  case convert v dp pos => cases (hostTurn_convert hq).symm.trans e; exact h

/-- The scheduler's call keeps the trigger level: it is low while the host is idle and at the start of a cycle. -/
theorem TriggerInv.afterCall (h : TriggerInv s) : TriggerInv (callRunOnce s) := by
  unfold callRunOnce
  split
  · next hq => simp only [TriggerInv, hq] at h; exact h
  · exact h

/-- Time that passes keeps the trigger level: it leaves the host in the delay it is in. -/
theorem TriggerInv.afterTick (h : TriggerInv s) (ms : Nat) : TriggerInv (passTime ms s) := by
  unfold TriggerInv
  rw [passTime_phase]
  cases hq : s.host.phase <;> simp only [TriggerInv, hq] at h <;> exact h

/-- Settles O44, by the turn that the step takes: the host alone drives the trigger while nobody else writes CTRL or
resets. -/
theorem stepKeepsTriggerLevel : Obligations.StepKeepsTriggerLevel := by
  intro s t h hquiet e
  rcases step_cases s with ⟨-, hs⟩ | ⟨x, rest, i, hn, hd, hs⟩ | ⟨x, rest, w, -, -, hs⟩ | ⟨rest, -, hs⟩ |
    ⟨rest, -, hs⟩ | ⟨ms, rest, -, hs⟩ <;> have e' := hs.symm.trans e
  · cases e'; exact h
  · obtain ⟨-, hh, hhost, -⟩ := exec_keeps e'
    have hx : disturbsCycle i = false := by
      simpa [quietTurn, hd] using hquiet (.transaction x) (by rw [hn]; rfl)
    exact h.of_same (by rw [hhost]; rfl) (exec_trigOut (s := s.setTurns rest) hx e') hh
  · cases e'; exact h.of_same rfl rfl rfl
  · exact TriggerInv.afterHostTurn (s := s.setTurns rest) h e'
  · cases e'; exact TriggerInv.afterCall (s := s.setTurns rest) h
  · cases e'; exact TriggerInv.afterTick (s := s.setTurns rest) h ms

end Sys2Proof.Machine

/-! Proofs of the family "host cycle", second part: the move of the host agent in one step, whatever else happens
(43_host_cycle.md R181, R185, R191, R193, R194). -/

namespace Sys2Proof.Machine

variable {s t : State} {hp : HostParams} {q : HostPhase} {a : HostAction} {o : HostOutput} {b : Bool} {r : Word}

/-! ### The move of the host agent in one step -/

/-- What was handed downstream after an action: only a report adds to it. -/
def outputsAfter : HostAction → List HostOutput → List HostOutput
  | .issue _, os => os
  | .delayReturns, os => os
  | .report o, os => o :: os

/-- The host took the action `a` in a step from `s` to `t`. What it read of CTRL is the flag, or that its frame is lost
to a RESET. -/
structure HostActs (s t : State) (a : HostAction) : Prop where
  turn : s.turns.head? = some .host
  next : nextAction s.hostParams s.host.phase = some a
  phase : t.host.phase = phaseAfter s.hostParams t.armedSinceReset t.rdata s.host.phase
  outputs : t.host.outputs = outputsAfter a s.host.outputs
  reads : a = .issue .rdCtrl →
    frameAwaited s.hostParams t.armedSinceReset t.rdata = (s.block.isReading || lostToReset s)

/-- What a step does to the host agent: it takes an action, it is called out of idleness, or it stands still but for
the time that passes. -/
inductive HostMove (s t : State) : Prop
  | acts (a : HostAction) (h : HostActs s t a)
  | called (turn : s.turns.head? = some .runOnce) (idle : s.host.phase = .idle) (phase : t.host.phase = .arm)
      (outputs : t.host.outputs = s.host.outputs)
  | waits (noAction : actionsNow s = []) (phase : t.host.phase = phaseAfterTick (msNow s) s.host.phase)
      (outputs : t.host.outputs = s.host.outputs)

@[simp] theorem phaseAfterTick_zero (q : HostPhase) : phaseAfterTick 0 q = q := by cases q <;> rfl

theorem actionsNow_host (ht : s.turns.head? = some .host) :
    actionsNow s = (nextAction s.hostParams s.host.phase).toList := by
  obtain ⟨rest, h⟩ := List.head?_eq_some_iff.1 ht
  simp [actionsNow, h]

theorem msNow_host (ht : s.turns.head? = some .host) : msNow s = 0 := by
  obtain ⟨rest, h⟩ := List.head?_eq_some_iff.1 ht
  simp [msNow, h]

theorem msNow_tick {ms : Nat} (ht : s.turns.head? = some (.tick ms)) : msNow s = ms := by
  obtain ⟨rest, h⟩ := List.head?_eq_some_iff.1 ht
  simp [msNow, h]

theorem HostActs.actionsNow (h : HostActs s t a) : actionsNow s = [a] := by
  rw [actionsNow_host h.turn, h.next, Option.toList_some]

/-- A step in which no time passes and the host is left alone. -/
theorem HostMove.of_same (hacts : actionsNow s = []) (hms : msNow s = 0) (hh : t.host = s.host) : HostMove s t :=
  .waits hacts (by rw [hh, hms, phaseAfterTick_zero]) (by rw [hh])

/-- A host turn whose transaction left the state `u` before the host moved on. -/
theorem HostActs.of_issue {i : Instr} {u : State} {rest : List Turn} (ht : s.turns = .host :: rest)
    (hn : nextAction s.hostParams s.host.phase = some (.issue i)) (e : exec i (s.setTurns rest) = .next u) :
    HostActs s (advancePhase u) (.issue i) := by
  obtain ⟨-, hh, hhost, -⟩ := exec_keeps e
  refine ⟨by rw [ht]; rfl, hn, ?_, by rw [advancePhase_outputs, hhost]; rfl, fun hi => ?_⟩
  · rw [advancePhase_phase, hh, hhost]; rfl
  · cases hi
    cases (exec_rdCtrl _).symm.trans e
    exact frameAwaited_readReg _ _ _

/-- The host's turn, as a move. -/
theorem hostMove_of_hostTurn {rest : List Turn} (ht : s.turns = .host :: rest)
    (e : hostTurn (s.setTurns rest) = .next t) : HostMove s t := by
  have hhead : s.turns.head? = some .host := by rw [ht]; rfl
  rcases hostTurn_cases (s.setTurns rest) with ⟨hn, h⟩ | ⟨i, u, hn, hx, h⟩ | ⟨hn, h⟩ | ⟨o, hn, h⟩ <;>
    cases h.symm.trans e <;> simp only [State.setTurns_hostParams, State.setTurns_host] at hn
  · exact .of_same (by rw [actionsNow_host hhead, hn]; rfl) (msNow_host hhead) rfl
  · exact .acts _ (.of_issue ht hn hx)
  · exact .acts _ ⟨hhead, hn, rfl, rfl, fun h => nomatch h⟩
  · exact .acts _ ⟨hhead, hn, rfl, rfl, fun h => nomatch h⟩

/-- Every step is one of these moves for the host agent. -/
theorem step_hostMove (e : step s = .next t) : HostMove s t := by
  rcases step_cases s with ⟨hn, hs⟩ | ⟨x, rest, i, hn, -, hs⟩ | ⟨x, rest, w, hn, -, hs⟩ | ⟨rest, hn, hs⟩ |
    ⟨rest, hn, hs⟩ | ⟨ms, rest, hn, hs⟩ <;> have e' := hs.symm.trans e
  · cases e'; exact .of_same (by simp [actionsNow, hn]) (by simp [msNow, hn]) rfl
  · obtain ⟨-, -, hhost, -⟩ := exec_keeps e'
    exact .of_same (by simp [actionsNow, hn]) (by simp [msNow, hn]) hhost
  · cases e'; exact .of_same (by simp [actionsNow, hn]) (by simp [msNow, hn]) rfl
  · exact hostMove_of_hostTurn hn e'
  · cases e'
    by_cases hq : s.host.phase = .idle
    · exact .called (by rw [hn]; rfl) hq (by simp [callRunOnce, hq]) (by simp)
    · exact .of_same (by simp [actionsNow, hn]) (by simp [msNow, hn]) (by simp [callRunOnce, hq])
  · cases e'; exact .waits (by simp [actionsNow, hn]) (by simp [msNow, hn]) rfl

/-! ### Calls (43_host_cycle.md R181, R182, R194) -/

/-- Settles O50: an idle host has no action and no delay, so only a call moves it. -/
theorem callsDoNotOverlap : Obligations.CallsDoNotOverlap := by
  refine ⟨fun s rest ht => ⟨fun hq => ?_, fun hq => ?_⟩, fun s t hq ht e => ?_, fun s h => step_idle h⟩
  · rw [step_cons ht, runTurn, callRunOnce, if_pos (by exact hq)]; rfl
  · rw [step_cons ht, runTurn, callRunOnce, if_neg (by exact hq)]; rfl
  · cases step_hostMove e with
    | acts a h => exact absurd h.next (by simp [hq, nextAction])
    | called hcall => exact absurd hcall ht
    | waits _ hphase => rw [hphase, hq]; rfl

/-! ### The states of a cycle (43_host_cycle.md R181) -/

/-- Time that passes is no change of the abstract state. -/
theorem cycleState_phaseAfterTick (ms : Nat) (q : HostPhase) : cycleState (phaseAfterTick ms q) = cycleState q := by
  cases q <;> rfl

theorem cycleState_pollOrDeassert (n : Nat) : cycleState (pollOrDeassert n) = .reading := by cases n <;> rfl

/-- Settles O55: the settle delay ends in Reading, the verdict in TimedOut or in the result reads, a report in Idle;
every other action stays in its abstract state. -/
theorem cycleStatesMoveAsNamed : Obligations.CycleStatesMoveAsNamed := by
  intro s t e
  cases step_hostMove e with
  | acts a h =>
    rw [h.phase]
    cases s.host.phase with
    | arm => left; rw [phaseAfter]; split <;> rfl
    | settle left => right; rw [phaseAfter, cycleState_pollOrDeassert]; simp [cycleState]
    | poll more => left; rw [phaseAfter]; split <;> rfl
    | pollSleep left more => left; rw [phaseAfter, cycleState_pollOrDeassert]; rfl
    | verdict =>
      rw [phaseAfter]
      split
      · right; simp [cycleState]
      · left; rfl
    | timedOut => right; simp [phaseAfter, cycleState]
    | convert v dp pos => right; simp [phaseAfter, cycleState]
    | _ => left; rfl
  | called _ hidle hphase => right; simp [hidle, hphase, cycleState]
  | waits _ hphase => left; rw [hphase, cycleState_phaseAfterTick]

/-! ### The actions a cycle uses up (43_host_cycle.md R191, R185) -/

theorem actionsLeft_pollOrDeassert (hp : HostParams) (n : Nat) : actionsLeft hp (pollOrDeassert n) = 6 + 2 * n := by
  cases n with
  | zero => rfl
  | succ n => simp only [pollOrDeassert, actionsLeft]; omega

/-- Every action leaves fewer to come. -/
theorem actionsLeft_phaseAfter (h : nextAction hp q = some a) :
    actionsLeft hp (phaseAfter hp b r q) < actionsLeft hp q := by
  cases q with
  | idle => cases h
  | arm => rw [phaseAfter]; split <;> simp only [actionsLeft] <;> omega
  | settle left => rw [phaseAfter, actionsLeft_pollOrDeassert, actionsLeft]; omega
  | poll more => rw [phaseAfter]; split <;> simp only [actionsLeft] <;> omega
  | pollSleep left more => rw [phaseAfter, actionsLeft_pollOrDeassert, actionsLeft]; omega
  | verdict => rw [phaseAfter]; split <;> simp only [actionsLeft] <;> omega
  | _ => simp only [phaseAfter, actionsLeft]; omega

/-- Time that passes uses up no action. -/
theorem actionsLeft_phaseAfterTick (hp : HostParams) (ms : Nat) (q : HostPhase) :
    actionsLeft hp (phaseAfterTick ms q) = actionsLeft hp q := by
  cases q <;> rfl

theorem delayLeft_phaseAfterTick (ms : Nat) (q : HostPhase) :
    delayLeft (phaseAfterTick ms q) = delayLeft q - ms := by
  cases q <;> simp [phaseAfterTick, delayLeft]

/-- Only an idle host and one inside a delay have no action. -/
theorem nextAction_eq_none (h : nextAction hp q = none) : q = .idle ∨ delayLeft q ≠ 0 := by
  cases q with
  | idle => exact .inl rfl
  | settle left => exact .inr (by simpa [nextAction, delayLeft] using h)
  | pollSleep left more => exact .inr (by simpa [nextAction, delayLeft] using h)
  | _ => cases h

/-- Settles O47: the host acts in its turns unless a delay holds it, and each action leaves fewer to come. -/
theorem cycleUsesUpItsActions : Obligations.CycleUsesUpItsActions := by
  intro s t e hidle
  rw [step_hostParams e]
  cases step_hostMove e with
  | acts a h =>
    have hlt := h.phase ▸ actionsLeft_phaseAfter (b := t.armedSinceReset) (r := t.rdata) h.next
    exact ⟨hlt.le, fun _ _ => hlt, fun ms ht => nomatch h.turn.symm.trans ht⟩
  | called _ h => exact absurd h hidle
  | waits hnoAction hphase =>
    rw [hphase, actionsLeft_phaseAfterTick, delayLeft_phaseAfterTick]
    refine ⟨le_rfl, fun ht hdelay => ?_, fun ms ht => by rw [msNow_tick ht]⟩
    rw [actionsNow_host ht, Option.toList_eq_nil_iff] at hnoAction
    exact absurd hdelay ((nextAction_eq_none hnoAction).resolve_left hidle)

/-! ### Outputs (43_host_cycle.md R190, R193) -/

/-- The host reports at the two ends of a cycle only. -/
theorem nextAction_report (h : nextAction hp q = some (.report o)) :
    q = .timedOut ∨ ∃ v dp pos, q = .convert v dp pos := by
  cases q with
  | timedOut => exact .inl rfl
  | convert v dp pos => exact .inr ⟨v, dp, pos, rfl⟩
  | _ => simp [nextAction] at h

theorem outputsAfter_of_not_report (h : ∀ o, a ≠ .report o) (os : List HostOutput) : outputsAfter a os = os := by
  cases a with
  | report o => exact absurd rfl (h o)
  | _ => rfl

/-- Settles O48: a report is the last action of its cycle, and no other action hands anything downstream. -/
theorem oneOutputPerCycle : Obligations.OneOutputPerCycle := by
  refine ⟨fun s t e => ?_, fun s rest ht hq => ?_⟩
  · cases step_hostMove e with
    | acts a h =>
      rw [h.actionsNow, h.outputs, h.phase]
      refine ⟨fun o ho => ?_, fun ho => outputsAfter_of_not_report (fun o ha => ho o (by rw [ha])) _⟩
      cases ho
      rcases nextAction_report h.next with hq | ⟨v, dp, pos, hq⟩ <;> simp [hq, phaseAfter, outputsAfter]
    | called ht _ _ houts =>
      obtain ⟨rest, hn⟩ := List.head?_eq_some_iff.1 ht
      exact ⟨fun o ho => by simp [actionsNow, hn] at ho, fun _ => houts⟩
    | waits hnoAction _ houts => exact ⟨fun o ho => by simp [hnoAction] at ho, fun _ => houts⟩
  · rw [step_hostTurn ht, hostTurn_timedOut (s := s.setTurns rest) hq]
    rfl

/-! ### The settle delay (43_host_cycle.md R185, 00_scope.md R12) -/

/-- The time in the first turns is the time of the first step and of those after it. -/
theorem ticksIn_take_succ (s : State) (n : Nat) :
    ticksIn (s.turns.take (n + 1)) = msNow s + ticksIn (s.turns.tail.take n) := by
  cases h : s.turns with
  | nil => simp [msNow, h, ticksIn]
  | cons x rest => cases x <;> simp [msNow, h, ticksIn]

/-- A host inside a settle delay only lets the time of the step pass. -/
theorem step_settle {left : Nat} (hq : s.host.phase = .settle left) (hl : left ≠ 0) (e : step s = .next t) :
    t.host.phase = .settle (left - msNow s) := by
  cases step_hostMove e with
  | acts a h => exact absurd h.next (by simp [hq, nextAction, hl])
  | called _ h => exact nomatch hq.symm.trans h
  | waits _ hphase => rw [hphase, hq]; rfl

/-- Settles O52, by induction on the number of steps: the delay left and the time still to pass shrink together. -/
theorem settleDelayIsHonoured : Obligations.SettleDelayIsHonoured := by
  intro n
  induction n with
  | zero =>
    intro left s t hq _ e
    cases e
    simpa [ticksIn] using hq
  | succ n ih =>
    intro left s t hq hlt e
    obtain ⟨u, hu, e⟩ := runSteps_succ_split e
    have hsplit := ticksIn_take_succ s n
    rw [← step_turns hu] at hsplit
    rw [ih (left - msNow s) u t (step_settle hq (by omega) hu) (by omega) e, hsplit, Nat.sub_sub]

end Sys2Proof.Machine

/-! Proofs of the family "host cycle", third part: finished cycles, by induction on their trace. The shape of `RunOnce`
(43_host_cycle.md R182) and its counts (R191, R192, R193). -/

namespace Sys2Proof.Machine

variable {s t : State} {hp : HostParams} {q : HostPhase} {a : HostAction} {b : Bool} {r : Word}
  {n ms : Nat} {acts tail : List HostAction}

/-! ### Induction on the trace of a finished cycle -/

theorem cycleTrace_of_idle (h : s.host.phase = .idle) : cycleTrace n s = some ([], 0) := by
  cases n <;> rw [cycleTrace, if_pos h]

/-- A trace that has not ended begins with a step. -/
theorem cycleTrace_of_not_idle (hidle : s.host.phase ≠ .idle) (h : cycleTrace n s = some (acts, ms)) :
    ∃ m t acts' ms', n = m + 1 ∧ step s = .next t ∧ cycleTrace m t = some (acts', ms')
      ∧ acts = actionsNow s ++ acts' ∧ ms = msNow s + ms' := by
  cases n with
  | zero => simp [cycleTrace, hidle] at h
  | succ m =>
    rw [cycleTrace, if_neg hidle] at h
    cases hs : step s with
    | fault f => cases f
    | refused f => simp [hs] at h
    | next t =>
      simp only [hs, Option.map_eq_some_iff, Prod.mk.injEq] at h
      obtain ⟨⟨acts', ms'⟩, ht, hacts, hms⟩ := h
      exact ⟨m, t, acts', ms', rfl, rfl, ht, hacts.symm, hms.symm⟩

/-- What holds of an ended cycle, and of a longer one with each action and each passing of time before it, holds of
every finished cycle. -/
theorem cycleTrace_induction {P : State → List HostAction → Nat → Prop}
    (idle : ∀ s, s.host.phase = .idle → P s [] 0)
    (wait : ∀ s t acts ms, step s = .next t → t.host.phase = phaseAfterTick (msNow s) s.host.phase →
      P t acts ms → P s acts (msNow s + ms))
    (act : ∀ s t a acts ms, step s = .next t → HostActs s t a → P t acts ms → P s (a :: acts) ms) :
    ∀ n s acts ms, cycleTrace n s = some (acts, ms) → P s acts ms := by
  intro n
  induction n with
  | zero =>
    intro s acts ms h
    by_cases hidle : s.host.phase = .idle
    · cases (cycleTrace_of_idle hidle).symm.trans h; exact idle s hidle
    · obtain ⟨m, -, -, -, hm, -⟩ := cycleTrace_of_not_idle hidle h
      cases hm
  | succ n ih =>
    intro s acts ms h
    by_cases hidle : s.host.phase = .idle
    · cases (cycleTrace_of_idle hidle).symm.trans h; exact idle s hidle
    · obtain ⟨m, t, acts', ms', hm, e, ht, rfl, rfl⟩ := cycleTrace_of_not_idle hidle h
      cases hm
      cases step_hostMove e with
      | acts a h =>
        rw [h.actionsNow, msNow_host h.turn, Nat.zero_add]
        exact act s t a acts' ms' e h (ih t acts' ms' ht)
      | called _ h => exact absurd h hidle
      | waits hnoAction hphase =>
        rw [hnoAction]
        exact wait s t acts' ms' e hphase (ih t acts' ms' ht)

/-! ### The shape of `RunOnce` (43_host_cycle.md R182) -/

/-- What follows the verdict read: the timeout warning, or the three result reads and one report. -/
def VerdictTail (hp : HostParams) (tail : List HostAction) : Prop :=
  tail = [.report (.warn .frameTimeout)]
  ∨ ∃ v dp pos, tail = [.issue .rdValue, .issue .rdDp, .issue .rdSign, .report (cycleResult hp v dp pos)]

/-- What follows the poll loop: the deassert, the verdict read and its tail. -/
def AfterLoop (hp : HostParams) (acts : List HostAction) : Prop :=
  ∃ tail, acts = .issue (.wrCtrl 0#32) :: .issue .rdCtrl :: tail ∧ VerdictTail hp tail

/-- The actions of the poll loop: `m` unsuccessful polls with their sleeps, and a successful one if the loop broke
off. -/
def loopActions (m : Nat) (broke : Bool) : List HostAction :=
  (List.replicate m [.issue .rdCtrl, .delayReturns]).flatten ++ if broke then [.issue .rdCtrl] else []

theorem loopActions_succ (m : Nat) (broke : Bool) :
    loopActions (m + 1) broke = .issue .rdCtrl :: .delayReturns :: loopActions m broke := rfl

/-- A cycle from the poll loop on, with `n` iterations to come: its actions and the least time they take. -/
def LoopShape (hp : HostParams) (n : Nat) (acts : List HostAction) (ms : Nat) : Prop :=
  ∃ m broke rest, acts = loopActions m broke ++ rest ∧ (if broke then m < n else m = n) ∧ AfterLoop hp rest
    ∧ m * hp.pollSleepMs ≤ ms

/-- A cycle from a delay before the poll loop on, with `left` ms to pass and `n` iterations to come. -/
def DelayShape (hp : HostParams) (left n : Nat) (acts : List HostAction) (ms : Nat) : Prop :=
  ∃ acts' ms', acts = .delayReturns :: acts' ∧ LoopShape hp n acts' ms' ∧ left + ms' ≤ ms

/-- A cycle from each of its control points on: its actions, and the least time they take. -/
def CycleShape (hp : HostParams) (acts : List HostAction) (ms : Nat) : HostPhase → Prop
  | .idle => acts = []
  | .arm => ∃ acts', acts = .issue (.wrCtrl 1#32) :: ((if hp.autoTrigger then [.issue (.wrCtrl 2#32)] else []) ++ acts')
      ∧ DelayShape hp hp.settleMs hp.pollIters acts' ms
  | .trigger => ∃ acts', acts = .issue (.wrCtrl 2#32) :: acts' ∧ DelayShape hp hp.settleMs hp.pollIters acts' ms
  | .settle left => DelayShape hp left hp.pollIters acts ms
  | .poll more => LoopShape hp (more + 1) acts ms
  | .pollSleep left more => DelayShape hp left more acts ms
  | .deassert => AfterLoop hp acts
  | .verdict => ∃ tail, acts = .issue .rdCtrl :: tail ∧ VerdictTail hp tail
  | .timedOut => acts = [.report (.warn .frameTimeout)]
  | .readValue => ∃ v dp pos,
      acts = [.issue .rdValue, .issue .rdDp, .issue .rdSign, .report (cycleResult hp v dp pos)]
  | .readDp v => ∃ dp pos, acts = [.issue .rdDp, .issue .rdSign, .report (cycleResult hp v dp pos)]
  | .readSign v dp => ∃ pos, acts = [.issue .rdSign, .report (cycleResult hp v dp pos)]
  | .convert v dp pos => acts = [.report (cycleResult hp v dp pos)]

theorem LoopShape.done (h : AfterLoop hp acts) : LoopShape hp 0 acts ms :=
  ⟨0, false, acts, rfl, rfl, h, by omega⟩

theorem LoopShape.breaksOff (h : AfterLoop hp acts) : LoopShape hp (n + 1) (.issue .rdCtrl :: acts) ms :=
  ⟨0, true, acts, rfl, Nat.succ_pos n, h, by omega⟩

theorem LoopShape.polls (h : DelayShape hp hp.pollSleepMs n acts ms) :
    LoopShape hp (n + 1) (.issue .rdCtrl :: acts) ms := by
  obtain ⟨_, ms', rfl, ⟨m, broke, rest, rfl, hm, hrest, hms⟩, hle⟩ := h
  refine ⟨m + 1, broke, rest, by rw [loopActions_succ]; rfl, ?_, hrest, by rw [Nat.succ_mul]; omega⟩
  cases broke <;> simpa using hm

theorem LoopShape.mono {ms' : Nat} (h : LoopShape hp n acts ms) (hle : ms ≤ ms') : LoopShape hp n acts ms' := by
  obtain ⟨m, broke, rest, hacts, hm, hrest, hms⟩ := h
  exact ⟨m, broke, rest, hacts, hm, hrest, hms.trans hle⟩

/-- A delay of which time passes. -/
theorem DelayShape.wait {left d : Nat} (h : DelayShape hp (left - d) n acts ms) :
    DelayShape hp left n acts (d + ms) := by
  obtain ⟨acts', ms', hacts, hloop, hle⟩ := h
  exact ⟨acts', ms', hacts, hloop, by omega⟩

theorem DelayShape.mono {left ms' : Nat} (h : DelayShape hp left n acts ms) (hle : ms ≤ ms') :
    DelayShape hp left n acts ms' := by
  obtain ⟨acts', ms₀, hacts, hloop, hms⟩ := h
  exact ⟨acts', ms₀, hacts, hloop, hms.trans hle⟩

/-- A delay with nothing left returns into the loop. -/
theorem DelayShape.returns (h : CycleShape hp acts ms (pollOrDeassert n)) :
    DelayShape hp 0 n (.delayReturns :: acts) ms := by
  refine ⟨acts, ms, rfl, ?_, by omega⟩
  cases n with
  | zero => exact .done h
  | succ n => exact h

/-- Time that passes before a cycle keeps its shape. -/
theorem CycleShape.wait {d : Nat} (h : CycleShape hp acts ms (phaseAfterTick d q)) : CycleShape hp acts (d + ms) q := by
  have hle : ms ≤ d + ms := Nat.le_add_left ms d
  cases q with
  | arm => exact h.imp fun _ => And.imp_right (·.mono hle)
  | trigger => exact h.imp fun _ => And.imp_right (·.mono hle)
  | settle left => exact DelayShape.wait h
  | poll more => exact LoopShape.mono h hle
  | pollSleep left more => exact DelayShape.wait h
  | _ => exact h

/-- An action before the cycle from the control point after it keeps the shape, whatever was read. -/
theorem CycleShape.act (hn : nextAction hp q = some a) (h : CycleShape hp acts ms (phaseAfter hp b r q)) :
    CycleShape hp (a :: acts) ms q := by
  cases q with
  | idle => cases hn
  | arm =>
    cases hn
    rw [phaseAfter] at h
    cases hauto : hp.autoTrigger <;> simp only [hauto, CycleShape] at h ⊢
    · exact ⟨acts, rfl, h⟩
    · obtain ⟨acts', rfl, h⟩ := h
      exact ⟨acts', rfl, h⟩
  | trigger => cases hn; exact ⟨acts, rfl, h⟩
  | settle left =>
    obtain ⟨rfl, rfl⟩ : left = 0 ∧ .delayReturns = a := by simpa [nextAction] using hn
    exact .returns h
  | poll more =>
    cases hn
    rw [phaseAfter] at h
    split at h
    · exact .polls h
    · exact .breaksOff h
  | pollSleep left more =>
    obtain ⟨rfl, rfl⟩ : left = 0 ∧ .delayReturns = a := by simpa [nextAction] using hn
    exact .returns h
  | deassert =>
    cases hn
    obtain ⟨tail, rfl, h⟩ := h
    exact ⟨tail, rfl, h⟩
  | verdict =>
    cases hn
    refine ⟨acts, rfl, ?_⟩
    rw [phaseAfter] at h
    split at h
    · exact .inl h
    · exact .inr h
  | timedOut => cases hn; exact congrArg _ h
  | readValue =>
    cases hn
    obtain ⟨dp, pos, rfl⟩ := h
    exact ⟨r, dp, pos, rfl⟩
  | readDp v =>
    cases hn
    obtain ⟨pos, rfl⟩ := h
    exact ⟨_, pos, rfl⟩
  | readSign v dp => cases hn; exact ⟨_, congrArg _ h⟩
  | convert v dp pos => cases hn; exact congrArg _ h

/-- Every finished cycle has the shape of its control point. -/
theorem cycleTrace_shape : ∀ n s acts ms, cycleTrace n s = some (acts, ms) →
    CycleShape s.hostParams acts ms s.host.phase := by
  refine cycleTrace_induction (P := fun s acts ms => CycleShape s.hostParams acts ms s.host.phase)
    (fun s hidle => by rw [hidle]; rfl) (fun s t acts ms e hphase h => ?_) (fun s t a acts ms e hact h => ?_)
  · rw [hphase, step_hostParams e] at h
    exact h.wait
  · rw [hact.phase, step_hostParams e] at h
    exact h.act hact.next

/-- Everything of a finished cycle up to its verdict read. -/
def beforeTail (auto : Bool) (m : Nat) (broke : Bool) : List HostAction :=
  .issue (.wrCtrl 1#32) :: ((if auto then [.issue (.wrCtrl 2#32)] else []) ++
    .delayReturns :: (loopActions m broke ++ [.issue (.wrCtrl 0#32), .issue .rdCtrl]))

/-- A cycle from its arming write on. -/
theorem cycleTrace_parts (hq : s.host.phase = .arm) (h : cycleTrace n s = some (acts, ms)) :
    ∃ m broke tail, acts = beforeTail s.hostParams.autoTrigger m broke ++ tail
      ∧ (if broke then m < s.hostParams.pollIters else m = s.hostParams.pollIters)
      ∧ VerdictTail s.hostParams tail ∧ s.hostParams.settleMs + m * s.hostParams.pollSleepMs ≤ ms := by
  have hshape := cycleTrace_shape n s acts ms h
  rw [hq] at hshape
  obtain ⟨_, rfl, _, ms', rfl, ⟨m, broke, _, rfl, hm, ⟨tail, rfl, htail⟩, hms⟩, hle⟩ := hshape
  exact ⟨m, broke, tail, by simp [beforeTail], hm, htail, by omega⟩

/-- Settles O46: the parts of a finished cycle, in the order of R182. -/
theorem finishedCycleHasTheShapeOfRunOnce : Obligations.FinishedCycleHasTheShapeOfRunOnce := by
  intro n s acts ms hq h
  obtain ⟨m, broke, tail, rfl, hm, htail, hms⟩ := cycleTrace_parts hq h
  exact ⟨m, broke, tail, by simp [beforeTail, loopActions], hm, htail, hms⟩

/-! ### The counts of a finished cycle (43_host_cycle.md R191, R192, R193) -/

@[simp] theorem isIssue_issue (i : Instr) : isIssue (.issue i) = true := rfl
@[simp] theorem isIssue_delayReturns : isIssue .delayReturns = false := rfl
@[simp] theorem isIssue_report (o : HostOutput) : isIssue (.report o) = false := rfl

theorem length_filter_isIssue_loopActions (m : Nat) (broke : Bool) :
    ((loopActions m broke).filter isIssue).length = m + broke.toNat := by
  induction m with
  | zero => cases broke <;> rfl
  | succ m ih =>
    rw [loopActions_succ, List.filter_cons_of_pos rfl, List.filter_cons_of_neg (by simp), List.length_cons, ih]
    omega

theorem count_delayReturns_loopActions (m : Nat) (broke : Bool) : (loopActions m broke).count .delayReturns = m := by
  induction m with
  | zero => cases broke <;> rfl
  | succ m ih => rw [loopActions_succ, List.count_cons_of_ne (by decide), List.count_cons_self, ih]

/-- The loop only reads CTRL and sleeps. -/
theorem count_loopActions_eq_zero (m : Nat) (broke : Bool) (hread : a ≠ .issue .rdCtrl) (hdelay : a ≠ .delayReturns) :
    (loopActions m broke).count a = 0 := by
  induction m with
  | zero => cases broke <;> simp [loopActions, hread.symm]
  | succ m ih => rw [loopActions_succ, List.count_cons_of_ne hread.symm, List.count_cons_of_ne hdelay.symm, ih]

theorem report_not_mem_beforeTail (auto : Bool) (m : Nat) (broke : Bool) (o : HostOutput) :
    .report o ∉ beforeTail auto m broke := by
  have hloop : .report o ∉ loopActions m broke :=
    List.count_eq_zero.1 (count_loopActions_eq_zero m broke nofun nofun)
  cases auto <;> simp [beforeTail, hloop]

/-- The tail is up to three transactions, neither delay nor write, and one report. -/
theorem VerdictTail.counts (h : VerdictTail hp tail) :
    (tail.filter isIssue).length ≤ 3 ∧ tail.count .delayReturns = 0 ∧ ∀ v, tail.count (.issue (.wrCtrl v)) = 0 := by
  rcases h with rfl | ⟨v, dp, pos, rfl⟩
  · exact ⟨by simp, by simp, by simp⟩
  · exact ⟨by simp [List.filter_cons], by simp, by simp⟩

theorem VerdictTail.ends (h : VerdictTail hp tail) :
    ∃ pre o, tail = pre ++ [.report o] ∧ ∀ o', .report o' ∉ pre := by
  rcases h with rfl | ⟨v, dp, pos, rfl⟩
  · exact ⟨[], _, rfl, by simp⟩
  · exact ⟨[.issue .rdValue, .issue .rdDp, .issue .rdSign], _, rfl, by simp⟩

/-- A finished cycle ends with its only report. -/
theorem cycleTrace_ends (hq : s.host.phase = .arm) (h : cycleTrace n s = some (acts, ms)) :
    ∃ pre o, acts = pre ++ [.report o] ∧ ∀ o', .report o' ∉ pre := by
  obtain ⟨m, broke, tail, rfl, -, htail, -⟩ := cycleTrace_parts hq h
  obtain ⟨pre, o, rfl, hpre⟩ := htail.ends
  refine ⟨beforeTail s.hostParams.autoTrigger m broke ++ pre, o, by rw [List.append_assoc], fun o' => ?_⟩
  simp [report_not_mem_beforeTail, hpre o']

/-- Settles O51, part by part of the cycle. -/
theorem finishedCycleIsBounded : Obligations.FinishedCycleIsBounded := by
  intro n s acts ms hq h
  obtain ⟨pre, o, hends, hpre⟩ := cycleTrace_ends hq h
  refine ⟨?issues, ?delays, ?raised, ?lowered, o, by rw [hends, List.getLast?_concat],
    fun o' => by rw [hends, List.dropLast_concat]; exact hpre o'⟩
  all_goals
    obtain ⟨m, broke, tail, rfl, hm, htail, -⟩ := cycleTrace_parts hq h
    obtain ⟨hissue, hdelay, hwrite⟩ := htail.counts
    have hloop : m + broke.toNat ≤ s.hostParams.pollIters := by
      cases broke
      · exact hm.le
      · exact hm
  case issues =>
    have := length_filter_isIssue_loopActions m broke
    cases s.hostParams.autoTrigger <;> simp [beforeTail, List.filter_cons] <;> omega
  case delays =>
    have := count_delayReturns_loopActions m broke
    cases s.hostParams.autoTrigger <;> simp [beforeTail, hdelay] <;> omega
  case raised =>
    have := count_loopActions_eq_zero (a := .issue (.wrCtrl 2#32)) m broke nofun nofun
    cases s.hostParams.autoTrigger <;> simp [beforeTail, hwrite, this]
  case lowered =>
    have := count_loopActions_eq_zero (a := .issue (.wrCtrl 0#32)) m broke nofun nofun
    cases s.hostParams.autoTrigger <;> simp [beforeTail, hwrite, this]

end Sys2Proof.Machine

/-! Proofs of the family "host cycle", fourth part: when a finished cycle reports the frame timeout (43_host_cycle.md
R190, R191), by what happens to the flag between the arming write and the verdict. -/

namespace Sys2Proof.Machine

variable {s t : State} {hp : HostParams} {q : HostPhase} {a : HostAction} {i : Instr} {b : Bool} {r : Word}
  {n ms : Nat} {acts : List HostAction} {p : Nat → Turn → Bool}

/-! ### The flag under turns from outside that leave it alone -/

/-- The transaction of a step comes from outside or is the host's action. -/
theorem stepInstr_cases (hi : stepInstr s = some i) :
    (∃ x, .transaction x ∈ s.turns ∧ decode s.params.tsW x = .instr i)
    ∨ nextAction s.hostParams s.host.phase = some (.issue i) := by
  obtain ⟨x, hx, hi⟩ := Option.bind_eq_some_iff.1 hi
  obtain ⟨rest, ht⟩ := List.head?_eq_some_iff.1 hx
  cases x with
  | transaction x =>
    cases hd : decode s.params.tsW x with
    | instr j =>
      simp only [turnInstr, hd] at hi
      cases hi
      exact .inl ⟨x, by simp [ht], hd⟩
    | reserved w => simp [turnInstr, hd] at hi
  | host =>
    right
    simp only [turnInstr] at hi
    split at hi
    · next j ha => cases hi; exact ha
    all_goals cases hi
  | runOnce => cases hi
  | tick ms => cases hi

/-- What holds of all turns to come, and reads the parameters only, holds of those left after a step. -/
theorem step_turns_forall (e : step s = .next t) (h : ∀ x ∈ s.turns, p s.params.tsW x = true) :
    ∀ x ∈ t.turns, p t.params.tsW x = true := by
  rw [step_params e, step_turns e]
  exact fun x hx => h x (List.mem_of_mem_tail hx)

/-- The host's own transactions clear no flag (40_edge_sampler.md R108). -/
theorem mayClearFlag_of_nextAction (h : nextAction hp q = some (.issue i)) : mayClearFlag i = false := by
  rcases nextAction_issue h with rfl | rfl | rfl | rfl | ⟨v, rfl⟩ <;> rfl

/-- After its arming write the host does not arm again. -/
theorem armsBlock_of_nextAction (hq : q ≠ .arm) (h : nextAction hp q = some (.issue i)) : armsBlock i = false := by
  cases q with
  | arm => exact absurd rfl hq
  | trigger => cases h; rfl
  | deassert => cases h; rfl
  | settle left => simp [nextAction] at h
  | pollSleep left more => simp [nextAction] at h
  | _ => cases h <;> rfl

/-- Without an EDGE or a RESET from outside, a flag that is set stays set. -/
theorem step_keeps_flag_set (h : ∀ x ∈ s.turns, keepsFlag s.params.tsW x = true) (e : step s = .next t)
    (hr : s.block.isReading = true) : t.block.isReading = true := by
  have hclear : ∀ i, stepInstr s = some i → mayClearFlag i = false := fun i hi => by
    rcases stepInstr_cases hi with ⟨x, hx, hd⟩ | hn
    · simpa [keepsFlag, hd] using h _ hx
    · exact mayClearFlag_of_nextAction hn
  by_contra hr'
  rcases (flagIsSetByArmAndClearedByPublish s t e).2 hr (Bool.eq_false_of_not_eq_true hr') with hi |
    ⟨c, d, T, hi, -⟩ <;>
    exact nomatch hclear _ hi

/-- While nobody but the host arms, a flag that is set after a step that is not the arming write was set before it. -/
theorem step_keeps_flag_clear (h : ∀ x ∈ s.turns, leavesArmingToHost s.params.tsW x = true)
    (hq : s.host.phase ≠ .arm) (e : step s = .next t) (hr : t.block.isReading = true) : s.block.isReading = true := by
  by_contra hr'
  obtain ⟨v, hi, hv⟩ := (flagIsSetByArmAndClearedByPublish s t e).1 (Bool.eq_false_of_not_eq_true hr') hr
  have harms : armsBlock (.wrCtrl v) = false := by
    rcases stepInstr_cases hi with ⟨x, hx, hd⟩ | hn
    · simpa [leavesArmingToHost, hd] using h _ hx
    · exact armsBlock_of_nextAction hq hn
  exact Bool.false_ne_true (harms.symm.trans hv)

/-- The host's first action sets the flag. -/
theorem HostActs.sets_flag (h : HostActs s t a) (e : step s = .next t) (hq : s.host.phase = .arm) :
    t.block.isReading = true := by
  obtain ⟨rest, ht⟩ := List.head?_eq_some_iff.1 h.turn
  cases ((step_hostTurn ht).trans (hostTurn_arm (s := s.setTurns rest) hq)).symm.trans e
  rfl

/-! ### Where a cycle can still time out -/

/-- The cycle has not read its flag clear: it has not armed yet, it has timed out, or it awaits its verdict with the
flag set. -/
def TimeoutAhead (s : State) : Prop :=
  s.host.phase = .arm ∨ s.host.phase = .timedOut ∨ (awaitsVerdict s.host.phase = true ∧ s.block.isReading = true)

/-- Between the arming write and the verdict it is the flag that tells. -/
theorem TimeoutAhead.flag_set (h : TimeoutAhead s) (hq : awaitsVerdict s.host.phase = true) :
    s.block.isReading = true := by
  rcases h with h | h | ⟨-, h⟩
  · simp [h, awaitsVerdict] at hq
  · simp [h, awaitsVerdict] at hq
  · exact h

theorem awaitsVerdict_phaseAfterTick (d : Nat) (q : HostPhase) :
    awaitsVerdict (phaseAfterTick d q) = awaitsVerdict q := by
  cases q <;> rfl

/-- Time that passes does not move the host between control points outside its delays. -/
theorem phaseAfterTick_eq_iff {d : Nat} {q' : HostPhase} (h : q' = .arm ∨ q' = .timedOut) :
    phaseAfterTick d q = q' ↔ q = q' := by
  rcases h with rfl | rfl <;> cases q <;> simp [phaseAfterTick]

theorem awaitsVerdict_phaseAfter_arm (hp : HostParams) (b : Bool) (r : Word) :
    awaitsVerdict (phaseAfter hp b r .arm) = true := by
  rw [phaseAfter]; split <;> rfl

/-- Before the verdict read every action leads on towards it. -/
theorem awaitsVerdict_phaseAfter (hq : awaitsVerdict q = true) (hv : q ≠ .verdict) :
    awaitsVerdict (phaseAfter hp b r q) = true := by
  cases q with
  | trigger => rfl
  | settle left => exact awaitsVerdict_pollOrDeassert _
  | poll more => rw [phaseAfter]; split <;> rfl
  | pollSleep left more => exact awaitsVerdict_pollOrDeassert _
  | deassert => rfl
  | verdict => exact absurd rfl hv
  | _ => cases hq

/-! ### A cycle in which nothing clears the flag (43_host_cycle.md R190) -/

/-- Standing still keeps a timeout ahead, if the flag stays set. -/
theorem TimeoutAhead.wait {d : Nat} (h : TimeoutAhead s) (hphase : t.host.phase = phaseAfterTick d s.host.phase)
    (hflag : s.block.isReading = true → t.block.isReading = true) : TimeoutAhead t := by
  rw [TimeoutAhead, hphase, phaseAfterTick_eq_iff (.inl rfl), phaseAfterTick_eq_iff (.inr rfl),
    awaitsVerdict_phaseAfterTick]
  exact h.imp_right (Or.imp_right (And.imp_right hflag))

/-- An action keeps a timeout ahead or reports it, if the flag stays set. -/
theorem TimeoutAhead.act (h : TimeoutAhead s) (hact : HostActs s t a) (e : step s = .next t)
    (hflag : s.block.isReading = true → t.block.isReading = true) :
    a = .report (.warn .frameTimeout) ∨ TimeoutAhead t := by
  rcases h with hq | hq | ⟨hq, hr⟩
  · exact .inr (.inr (.inr ⟨by rw [hact.phase, hq, awaitsVerdict_phaseAfter_arm], hact.sets_flag e hq⟩))
  · exact .inl (Option.some.inj (hact.next.symm.trans (by rw [hq]; rfl)))
  · right
    by_cases hv : s.host.phase = .verdict
    · have hread := hact.reads (Option.some.inj (hact.next.symm.trans (by rw [hv]; rfl)))
      refine .inr (.inl ?_)
      rw [hact.phase, hv, phaseAfter, hread, hr, Bool.true_or, if_pos rfl]
    · exact .inr (.inr ⟨by rw [hact.phase, awaitsVerdict_phaseAfter hq hv], hflag hr⟩)

/-- While nothing clears the flag, a timeout that is ahead is reported. -/
theorem cycleTrace_reports_timeout : ∀ n s acts ms, cycleTrace n s = some (acts, ms) →
    (∀ x ∈ s.turns, keepsFlag s.params.tsW x = true) → TimeoutAhead s → .report (.warn .frameTimeout) ∈ acts := by
  refine cycleTrace_induction (P := fun s acts _ => (∀ x ∈ s.turns, keepsFlag s.params.tsW x = true) →
    TimeoutAhead s → .report (.warn .frameTimeout) ∈ acts) (fun s hidle _ h => ?_)
    (fun s t acts ms e hphase ih hkeep h => ?_) (fun s t a acts ms e hact ih hkeep h => ?_)
  · simp [TimeoutAhead, hidle, awaitsVerdict] at h
  · exact ih (step_turns_forall e hkeep) (h.wait hphase (step_keeps_flag_set hkeep e))
  · rcases h.act hact e (step_keeps_flag_set hkeep e) with rfl | h
    · exact List.mem_cons_self
    · exact List.mem_cons_of_mem _ (ih (step_turns_forall e hkeep) h)

/-- Settles O49: the timeout is reported, and a cycle has one report, its last action. -/
theorem cycleWithoutEdgesTimesOut : Obligations.CycleWithoutEdgesTimesOut := by
  intro n s acts ms hq hkeep h
  have htimeout := cycleTrace_reports_timeout n s acts ms h hkeep (.inl hq)
  obtain ⟨pre, o, rfl, hpre⟩ := cycleTrace_ends hq h
  obtain rfl : HostOutput.warn .frameTimeout = o := by simpa [hpre] using htimeout
  exact ⟨⟨pre, rfl⟩, fun y => by simp [hpre]⟩

/-! ### The budget of a cycle that times out (43_host_cycle.md R191) -/

/-- The time that all delays to come of a cycle take if no poll finds the flag clear. -/
def delayBudget (hp : HostParams) : HostPhase → Nat
  | .arm | .trigger => hp.settleMs + hp.pollIters * hp.pollSleepMs
  | .settle left => left + hp.pollIters * hp.pollSleepMs
  | .poll more => (more + 1) * hp.pollSleepMs
  | .pollSleep left more => left + more * hp.pollSleepMs
  | .idle | .deassert | .verdict | .timedOut | .readValue | .readDp _ | .readSign _ _ | .convert _ _ _ => 0

theorem delayBudget_pollOrDeassert (hp : HostParams) (n : Nat) :
    delayBudget hp (pollOrDeassert n) = n * hp.pollSleepMs := by
  cases n with
  | zero => exact (Nat.zero_mul _).symm
  | succ n => rfl

/-- Time that passes takes no more than itself off the budget. -/
theorem delayBudget_phaseAfterTick (hp : HostParams) (d : Nat) (q : HostPhase) :
    delayBudget hp q ≤ d + delayBudget hp (phaseAfterTick d q) := by
  cases q <;> simp only [phaseAfterTick, delayBudget] <;> omega

/-- No action takes anything off the budget but a poll that finds the flag clear. -/
theorem delayBudget_phaseAfter (h : nextAction hp q = some a)
    (hpoll : awaitsVerdict q = true → a = .issue .rdCtrl → frameAwaited hp b r = true) :
    delayBudget hp q ≤ delayBudget hp (phaseAfter hp b r q) := by
  cases q with
  | arm => rw [phaseAfter]; split <;> exact le_rfl
  | trigger => exact le_rfl
  | settle left =>
    obtain ⟨rfl, -⟩ : left = 0 ∧ .delayReturns = a := by simpa [nextAction] using h
    rw [phaseAfter, delayBudget_pollOrDeassert, delayBudget, Nat.zero_add]
  | poll more =>
    rw [phaseAfter, if_pos (hpoll rfl (Option.some.inj h.symm)), delayBudget, delayBudget, Nat.succ_mul, Nat.add_comm]
  | pollSleep left more =>
    obtain ⟨rfl, -⟩ : left = 0 ∧ .delayReturns = a := by simpa [nextAction] using h
    rw [phaseAfter, delayBudget_pollOrDeassert, delayBudget, Nat.zero_add]
  | _ => exact Nat.zero_le _

/-- A timeout that is ahead after a step in which the host stood still was ahead before it, if nothing armed. -/
theorem TimeoutAhead.of_wait {d : Nat} (h : TimeoutAhead t) (hphase : t.host.phase = phaseAfterTick d s.host.phase)
    (hflag : s.host.phase ≠ .arm → t.block.isReading = true → s.block.isReading = true) : TimeoutAhead s := by
  rw [TimeoutAhead, hphase, phaseAfterTick_eq_iff (.inl rfl), phaseAfterTick_eq_iff (.inr rfl),
    awaitsVerdict_phaseAfterTick] at h
  by_cases hq : s.host.phase = .arm
  · exact .inl hq
  · exact h.imp_right (Or.imp_right (And.imp_right (hflag hq)))

/-- A timeout that is ahead after an action was ahead before it, if nothing but the arming write armed and the host
tests bit 0 alone: a verdict or a poll that found the flag clear leads to none. -/
theorem TimeoutAhead.of_act (h : TimeoutAhead t) (hact : HostActs s t a) (hbit : s.hostParams.resetTimesOut = false)
    (hflag : s.host.phase ≠ .arm → t.block.isReading = true → s.block.isReading = true) : TimeoutAhead s := by
  by_cases hawait : awaitsVerdict s.host.phase = true
  · refine .inr (.inr ⟨hawait, ?_⟩)
    by_cases hv : s.host.phase = .verdict
    · have hread := hact.reads (Option.some.inj (hact.next.symm.trans (by rw [hv]; rfl)))
      rw [lostToReset_of_bitZeroAlone hbit, Bool.or_false] at hread
      by_contra hr
      rw [TimeoutAhead, hact.phase, hv, phaseAfter, hread, if_neg hr] at h
      simp [awaitsVerdict] at h
    · refine hflag (fun hq => ?_) (h.flag_set (by rw [hact.phase, awaitsVerdict_phaseAfter hawait hv]))
      simp [hq, awaitsVerdict] at hawait
  · rw [TimeoutAhead, hact.phase] at h
    cases hq : s.host.phase with
    | arm => exact .inl hq
    | timedOut => exact .inr (.inl hq)
    | idle | readValue | readDp v | readSign v dp | convert v dp pos => simp [hq, phaseAfter, awaitsVerdict] at h
    | _ => exact absurd (by rw [hq]; rfl) hawait

theorem cycleResult_ne_timeout (hp : HostParams) (v : Word) (dp : Nibble) (pos : Bool) :
    cycleResult hp v dp pos ≠ .warn .frameTimeout := by
  rw [cycleResult]; split <;> nofun

/-- The timeout is reported from one control point only. -/
theorem phase_of_timeout (h : nextAction hp q = some (.report (.warn .frameTimeout))) : q = .timedOut := by
  rcases nextAction_report h with hq | ⟨v, dp, pos, rfl⟩
  · exact hq
  · exact absurd (by simpa [nextAction] using h) (cycleResult_ne_timeout hp v dp pos)

/-- While nobody but the host arms, a cycle that reports the timeout has found the flag set at every poll, so all its
delays have passed. -/
theorem cycleTrace_timeout_budget : ∀ n s acts ms, cycleTrace n s = some (acts, ms) →
    s.hostParams.resetTimesOut = false → (∀ x ∈ s.turns, leavesArmingToHost s.params.tsW x = true) →
    .report (.warn .frameTimeout) ∈ acts → TimeoutAhead s ∧ delayBudget s.hostParams s.host.phase ≤ ms := by
  refine cycleTrace_induction (P := fun s acts ms => s.hostParams.resetTimesOut = false →
    (∀ x ∈ s.turns, leavesArmingToHost s.params.tsW x = true) → .report (.warn .frameTimeout) ∈ acts →
    TimeoutAhead s ∧ delayBudget s.hostParams s.host.phase ≤ ms) (fun s _ _ _ h => nomatch h)
    (fun s t acts ms e hphase ih hbit hturns h => ?_) (fun s t a acts ms e hact ih hbit hturns h => ?_)
  all_goals
    have hhp := step_hostParams e
    have hflag := fun hq => step_keeps_flag_clear hturns hq e
    have ih := ih (by rw [hhp, hbit]) (step_turns_forall e hturns)
  · obtain ⟨hahead, hms⟩ := ih h
    rw [hhp, hphase] at hms
    have := delayBudget_phaseAfterTick s.hostParams (msNow s) s.host.phase
    exact ⟨hahead.of_wait hphase hflag, by omega⟩
  · rcases List.mem_cons.1 h with rfl | h
    · have hq := phase_of_timeout hact.next
      exact ⟨.inr (.inl hq), by rw [hq]; exact Nat.zero_le ms⟩
    · obtain ⟨hahead, hms⟩ := ih h
      have hs := hahead.of_act hact hbit hflag
      rw [hhp, hact.phase] at hms
      refine ⟨hs, le_trans (delayBudget_phaseAfter hact.next fun hq ha => ?_) hms⟩
      rw [hact.reads ha, hs.flag_set hq, Bool.true_or]

/-- Settles O58: the budget of a cycle from its arming write on. -/
theorem timedOutCycleExhaustsItsBudget : Obligations.TimedOutCycleExhaustsItsBudget := by
  intro n s acts ms hbit hq hturns h htimeout
  have hms := (cycleTrace_timeout_budget n s acts ms h hbit hturns htimeout).2
  rwa [hq] at hms

end Sys2Proof.Machine

/-! Proofs of the family "exceptions" (60_exceptions.md): no transaction, no turn of the host and no step stops (R201). -/

namespace Sys2Proof.Machine

/-- Every transaction completes: each of the things it can do gives a next state (40_edge_sampler.md R107). -/
theorem exec_completes (i : Instr) (s : State) : ∃ t, exec i s = .next t := by
  rcases exec_cases i s with h | ⟨-, h⟩ | ⟨c, d, T, -, -, h⟩ | ⟨c, d, T, -, -, -, h⟩ | ⟨-, v, h⟩ | ⟨v, -, h⟩ <;>
    exact ⟨_, h⟩

/-- The host's turn completes, whether it has an action or not. -/
theorem hostTurn_completes (s : State) : ∃ t, hostTurn s = .next t := by
  rcases hostTurn_cases s with ⟨-, h⟩ | ⟨i, u, -, -, h⟩ | ⟨-, h⟩ | ⟨o, -, h⟩ <;> exact ⟨_, h⟩

/-- Every step completes: a transaction and a turn of the host do, and every other turn gives its next state outright. -/
theorem step_completes (s : State) : ∃ t, step s = .next t := by
  rcases step_cases s with ⟨-, h⟩ | ⟨x, rest, i, -, -, h⟩ | ⟨x, rest, w, -, -, h⟩ | ⟨rest, -, h⟩ | ⟨rest, -, h⟩ |
    ⟨ms, rest, -, h⟩
  · exact ⟨_, h⟩
  · exact h ▸ exec_completes i _
  · exact ⟨_, h⟩
  · exact h ▸ hostTurn_completes _
  · exact ⟨_, h⟩
  · exact ⟨_, h⟩

/-- Settles O8: transactions and steps complete by what each of them can do, and the block that RESET writes is the
power-on block. -/
theorem everyTransactionCompletes : Obligations.EveryTransactionCompletes :=
  ⟨exec_completes, step_completes, fun s => ⟨_, exec_reset s, resetBlock_eq⟩⟩

end Sys2Proof.Machine

/-! Proofs of the family "reset and hazards" (70_reset_and_hazards.md): what RESET writes and power-on gives (R230,
R231, R232), the stale partial frame (R244), and the remark on a RESET inside a cycle (R230 (c)). -/

namespace Sys2Proof.Machine

variable {s t : State} {p : BlockParams} {f : Nat → Nat × Bool} {k : Block} {n : Nat} {a : HostAction}

/-! ### RESET and power-on (70_reset_and_hazards.md R230, R231, R232) -/

/-- Settles O9: RESET replaces the block whole, and outside it touches the bookkeeping of arms alone. -/
theorem resetRestoresTheBlock : Obligations.ResetRestoresTheBlock := exec_reset

/-- Settles O10: the reset block is the power-on block; not being armed closes its gate to every edge, and no edge is
pending for the acknowledge to clear. -/
theorem powerOnIsTheResetState : Obligations.PowerOnIsTheResetState := by
  refine ⟨fun s t e => ?_, rfl, rfl, rfl, fun c d T => exec_edge_closed c d T (gateOpen_false_iff.2 (.inl rfl))⟩
  cases (exec_reset s).symm.trans e
  exact resetBlock_eq

/-- The registers of the reset block: of the four only the sign, which is positive, reads 1. -/
theorem readReg_reset (r : Reg) : readReg r Block.reset = if r = .resultSign then 1#32 else 0#32 := by
  cases r <;> decide

/-- Settles O11: each read answers with its register of the reset block. -/
theorem resetValuesAsRead : Obligations.ResetValuesAsRead := by
  intro s t e
  cases (exec_reset s).symm.trans e
  rw [exec_rdCtrl, exec_rdValue, exec_rdDp, exec_rdSign, State.setArmed_block, State.setBlock_block, resetBlock_eq]
  simp only [readReg_reset]
  exact ⟨rfl, rfl, rfl, rfl⟩

/-! ### A stale partial frame (70_reset_and_hazards.md R244) -/

/-- While bits without a gap do not fill the frame, the next one is within the window too. -/
theorem feed_in_window (hr : k.isReading = true) (hb : k.bc.toNat + n ≤ 51)
    (h0 : gapOf p (f 0).1 k.prevTs ≤ p.maxBitWait)
    (hg : ∀ i, i + 1 < n + 1 → gapOf p (f (i + 1)).1 (f i).1 ≤ p.maxBitWait) :
    gapOf p (f n).1 (feed p f n k).prevTs ≤ p.maxBitWait := by
  obtain ⟨-, -, hts⟩ := feed_count hr hb (fun _ => h0) fun i hi => hg i (by omega)
  cases n with
  | zero => exact h0
  | succ n =>
    rw [hts, if_neg n.succ_ne_zero, Nat.add_sub_cancel, gapOf_mod_right]
    exact hg n (by omega)

/-- The bit that makes up 52 with those of the buffer and those before it completes the frame (41_frame_decoder.md
R125). -/
theorem feed_completes (hr : k.isReading = true) (hb : k.bc.toNat + n = 51)
    (h0 : gapOf p (f 0).1 k.prevTs ≤ p.maxBitWait)
    (hg : ∀ i, i + 1 < n + 1 → gapOf p (f (i + 1)).1 (f i).1 ≤ p.maxBitWait) :
    (feed p f (n + 1) k).isReading = false ∧ (feed p f (n + 1) k).bc = 0#6 := by
  obtain ⟨⟨hflag, -⟩, hbc, -⟩ := feed_count hr hb.le (fun _ => h0) fun i hi => hg i (by omega)
  have hgap := feed_in_window hr hb.le h0 hg
  rw [feed, edgeBlock_complete (gateOpen_iff.2 ⟨hflag.trans hr, rfl⟩)
    (gapExceeded_false_iff_gapOf.2 (by rwa [gapOf_mod_left])) (hbc.trans hb)]
  exact ⟨rfl, rfl⟩

/-- Settles O25: the run is the bits fed to the block; each is counted on top of the old ones, and the last finds 51 of
them in the buffer. -/
theorem stalePartialFrameCompletesEarly : Obligations.StalePartialFrameCompletesEarly := by
  rintro s f m rest hr rfl hm h0 hg ht
  obtain ⟨n, hn⟩ := Nat.exists_eq_add_of_le hm
  have hlen : 52 - s.block.bc.toNat = n + 1 := by omega
  rw [hlen] at hg ht ⊢
  have hrun := runSteps_bits hm ht
  refine ⟨fun j hj => ⟨_, hrun j hj.le, ?_⟩, _, hrun (n + 1) le_rfl, ?_⟩
  · obtain ⟨⟨hflag, -⟩, hbc, -⟩ :=
      feed_count (n := j) hr (by omega) (fun _ => h0) fun i hi => hg i (by omega)
    exact ⟨hflag.trans hr, hbc⟩
  · obtain ⟨hflag, hbc⟩ := feed_completes hr hn.symm h0 hg
    exact ⟨hflag, hbc, by simp [bitTurns, pseudoBits]⟩

/-! ### A RESET inside a cycle (70_reset_and_hazards.md R230 (c)) -/

/-- What a RESET has taken from a cycle stays lost while nobody arms: neither an edge nor another RESET brings it
back, and a write of CTRL only through its bit 0. -/
theorem step_keeps_lost (harm : ∀ i, stepInstr s = some i → armsBlock i = false) (hlost : lostToReset s = true)
    (e : step s = .next t) : lostToReset t = true := by
  simp only [lostToReset, step_hostParams e, Bool.and_eq_true, Bool.not_eq_true'] at hlost ⊢
  refine ⟨hlost.1, ?_⟩
  rcases step_block_cases e with ⟨-, ha, -⟩ | ⟨-, -, ha, -⟩ | ⟨c, d, T, -, -, -, ha, -⟩ | ⟨v, hi, -, ha, -⟩
  · exact ha.trans hlost.2
  · exact ha
  · exact ha.trans hlost.2
  · have hv : wdataArm v = false := harm _ hi
    rw [ha, armedAfter, hv, hlost.2, Bool.or_false]

/-- The cycle has lost its frame to a RESET, and its timeout has still to be reported: it awaits its verdict or has
timed out. -/
structure LostCycle (s : State) : Prop where
  lost : lostToReset s = true
  phase : awaitsVerdict s.host.phase = true ∨ s.host.phase = .timedOut

theorem LostCycle.not_idle (h : LostCycle s) : s.host.phase ≠ .idle := by
  intro hidle
  simpa [hidle, awaitsVerdict] using h.phase

/-- Time that passes leaves a lost cycle lost. -/
theorem LostCycle.wait {d : Nat} (h : LostCycle s) (hlost : lostToReset t = true)
    (hphase : t.host.phase = phaseAfterTick d s.host.phase) : LostCycle t := by
  refine ⟨hlost, ?_⟩
  rw [hphase, awaitsVerdict_phaseAfterTick, phaseAfterTick_eq_iff (.inr rfl)]
  exact h.phase

/-- The host acts in a lost cycle: it reports the timeout and is idle, or reports nothing and goes on towards the
verdict, which it reads as a timeout. -/
theorem LostCycle.act (h : LostCycle s) (hlost : lostToReset t = true) (hact : HostActs s t a) :
    (a = .report (.warn .frameTimeout) ∧ t.host.phase = .idle) ∨ ((∀ o, a ≠ .report o) ∧ LostCycle t) := by
  rcases h.phase with hq | hq
  · refine .inr ⟨?_, hlost, ?_⟩
    · rintro o rfl
      rcases nextAction_report hact.next with hq' | ⟨v, dp, pos, hq'⟩ <;> simp [hq', awaitsVerdict] at hq
    · rw [hact.phase]
      by_cases hv : s.host.phase = .verdict
      · have hread := hact.reads (Option.some.inj (hact.next.symm.trans (by rw [hv]; rfl)))
        rw [hv, phaseAfter, hread, h.lost, Bool.or_true]
        exact .inr rfl
      · exact .inl (awaitsVerdict_phaseAfter hq hv)
  · exact .inl ⟨Option.some.inj (hact.next.symm.trans (by rw [hq]; rfl)), by rw [hact.phase, hq]; rfl⟩

/-- A lost cycle that nobody arms again ends with the timeout as its only report. The induction is on the steps, as
only so many of them are known not to arm. -/
theorem LostCycle.reports_timeout (n : Nat) : ∀ {s : State} {acts : List HostAction} {ms : Nat}, LostCycle s →
    noStepPerforms armsBlock n s → cycleTrace n s = some (acts, ms) →
    ∃ pre, acts = pre ++ [.report (.warn .frameTimeout)] ∧ ∀ o, .report o ∉ pre := by
  induction n with
  | zero =>
    intro s acts ms h _ htrace
    obtain ⟨m, -, -, -, hm, -⟩ := cycleTrace_of_not_idle h.not_idle htrace
    cases hm
  | succ n ih =>
    intro s acts ms h ⟨harm, hrest⟩ htrace
    obtain ⟨_, t, acts', ms', hm, e, htrace', rfl, -⟩ := cycleTrace_of_not_idle h.not_idle htrace
    cases hm
    have hlost := step_keeps_lost harm h.lost e
    cases step_hostMove e with
    | called _ hidle => exact absurd hidle h.not_idle
    | waits hnoAction hphase =>
      rw [hnoAction]
      exact ih (h.wait hlost hphase) (hrest t e) htrace'
    | acts a hact =>
      rw [hact.actionsNow]
      rcases h.act hlost hact with ⟨rfl, hidle⟩ | ⟨hnot, h'⟩
      · cases (cycleTrace_of_idle hidle).symm.trans htrace'
        exact ⟨[], rfl, by simp⟩
      · obtain ⟨pre, rfl, hpre⟩ := ih h' (hrest t e) htrace'
        exact ⟨a :: pre, rfl, fun o => List.not_mem_cons_of_ne_of_not_mem (hnot o).symm (hpre o)⟩

/-- Settles O56: RESET and the write of CTRL by what they do to the bookkeeping of arms; the cycle is lost to its
RESET. -/
theorem resetInACycleTimesOut : Obligations.ResetInACycleTimesOut := by
  refine ⟨fun s => ⟨_, exec_reset s, rfl, rfl⟩, fun v s => ⟨_, exec_wrCtrl s v, armedAfter_eq v _⟩,
    fun n s acts ms hparam hunarmed hq harm htrace => ?_⟩
  have hlost : lostToReset s = true := by rw [lostToReset, hparam, hunarmed]; rfl
  obtain ⟨pre, rfl, hpre⟩ := LostCycle.reports_timeout n ⟨hlost, .inl hq⟩ harm htrace
  exact ⟨⟨pre, rfl⟩, fun y => by simp [hpre]⟩

end Sys2Proof.Machine
